-- ==== Sys2Proof/Word.lean ====
section
/-! DEFINITION. The two word types of the block: 8-bit data and 16-bit addresses (00_scope.md R3, R4). -/

namespace Sys2Proof

/-- A byte: a register, a memory cell, an opcode or an 8-bit operand. Arithmetic on it is modulo 256 (R4). -/
abbrev Byte := BitVec 8

/-- A 16-bit address or the program counter. Arithmetic on it is modulo 65536 (R4). -/
abbrev Addr := BitVec 16

end Sys2Proof
end

