-- ==== Sys2Proof/Config.lean ====
section
/-! DEFINITION. The configuration of the block (00_scope.md R3): the opcode table and the two variant parameters.
The default table T0 and the default configuration stand in Decode.lean. -/

namespace Sys2Proof

/-- The seven mnemonic tags of a descriptor (30_encoding.md R54). -/
inductive Mnemonic where
  | and | asl | lda | sta | tax | inx | brk
  deriving DecidableEq, Repr

/-- The ten addressing-mode tags of a descriptor (30_encoding.md R54, 40_addressing.md R70). -/
inductive Mode where
  | immediate | zeroPage | zeroPageX | zeroPageY
  | absolute | absoluteX | absoluteY
  | indirectX | indirectY
  | noneAddressing
  deriving DecidableEq, Repr

/-- The number of operand bytes a mode consumes (30_encoding.md R62). -/
def Mode.operandBytes : Mode → Nat
  | .noneAddressing => 0
  | .immediate | .zeroPage | .zeroPageX | .zeroPageY | .indirectX | .indirectY => 1
  | .absolute | .absoluteX | .absoluteY => 2

/-- An opcode descriptor (30_encoding.md R54). `length` counts the opcode byte; `baseCycles` is informational and
read by nothing (70_reset_and_hazards.md R219). -/
structure Descriptor where
  code       : Byte
  mnemonic   : Mnemonic
  length     : Nat
  baseCycles : Nat
  mode       : Mode
  deriving DecidableEq, Repr

/-- `OPTABLE` as data: its descriptors in order of their codes (WellFormed.lean says which lists are tables). -/
abbrev OpTable := List Descriptor

/-- `ASL_VARIANT` (00_scope.md R3; 92_eei_decisions.md D11). -/
inductive AslVariant where
  | stub | complete
  deriving DecidableEq, Repr

/-- `INDY_VARIANT` (00_scope.md R3; 92_eei_decisions.md D13). -/
inductive IndyVariant where
  | preIndexed | postIndexed
  deriving DecidableEq, Repr

/-- The configuration parameters of 00_scope.md R3. -/
structure Config where
  opTable     : OpTable
  aslVariant  : AslVariant
  indyVariant : IndyVariant
  deriving DecidableEq, Repr

end Sys2Proof
end

