-- ==== Sys2Proof/Syntax.lean ====
section
/-! DEFINITION. The instructions: one constructor per row of spec/opcode_table.json (30_encoding.md R55), carrying the
row's operand field (R51: `op8` for format F2, `op16` for format F3, nothing for F1). -/

namespace Sys2Proof

/-- The 27 rows of T0. -/
inductive Instr where
  /-- 0x00, R165. -/
  | brk
  /-- 0x0A, R112. -/
  | aslA
  /-- 0x29, R102. -/
  | andImmediate (op8 : Byte)
  /-- 0x25, R103. -/
  | andZeroPage (op8 : Byte)
  /-- 0x35, R104. -/
  | andZeroPageX (op8 : Byte)
  /-- 0x2D, R105. -/
  | andAbsolute (op16 : Addr)
  /-- 0x3D, R106. -/
  | andAbsoluteX (op16 : Addr)
  /-- 0x39, R107. -/
  | andAbsoluteY (op16 : Addr)
  /-- 0x21, R108. -/
  | andIndirectX (op8 : Byte)
  /-- 0x31, R109. -/
  | andIndirectY (op8 : Byte)
  /-- 0xA9, R121. -/
  | ldaImmediate (op8 : Byte)
  /-- 0xA5, R122. -/
  | ldaZeroPage (op8 : Byte)
  /-- 0xB5, R123. -/
  | ldaZeroPageX (op8 : Byte)
  /-- 0xAD, R124. -/
  | ldaAbsolute (op16 : Addr)
  /-- 0xBD, R125. -/
  | ldaAbsoluteX (op16 : Addr)
  /-- 0xB9, R126. -/
  | ldaAbsoluteY (op16 : Addr)
  /-- 0xA1, R127. -/
  | ldaIndirectX (op8 : Byte)
  /-- 0xB1, R128. -/
  | ldaIndirectY (op8 : Byte)
  /-- 0x85, R131. -/
  | staZeroPage (op8 : Byte)
  /-- 0x95, R132. -/
  | staZeroPageX (op8 : Byte)
  /-- 0x8D, R133. -/
  | staAbsolute (op16 : Addr)
  /-- 0x9D, R134. -/
  | staAbsoluteX (op16 : Addr)
  /-- 0x99, R135. -/
  | staAbsoluteY (op16 : Addr)
  /-- 0x81, R136. -/
  | staIndirectX (op8 : Byte)
  /-- 0x91, R137. -/
  | staIndirectY (op8 : Byte)
  /-- 0xAA, R150. -/
  | tax
  /-- 0xE8, R151. -/
  | inx
  deriving DecidableEq, Repr

/-- The mnemonic tag of an instruction's row (R55). -/
def Instr.mnemonic : Instr → Mnemonic
  | .brk => .brk
  | .aslA => .asl
  | .andImmediate _ => .and
  | .andZeroPage _ => .and
  | .andZeroPageX _ => .and
  | .andAbsolute _ => .and
  | .andAbsoluteX _ => .and
  | .andAbsoluteY _ => .and
  | .andIndirectX _ => .and
  | .andIndirectY _ => .and
  | .ldaImmediate _ => .lda
  | .ldaZeroPage _ => .lda
  | .ldaZeroPageX _ => .lda
  | .ldaAbsolute _ => .lda
  | .ldaAbsoluteX _ => .lda
  | .ldaAbsoluteY _ => .lda
  | .ldaIndirectX _ => .lda
  | .ldaIndirectY _ => .lda
  | .staZeroPage _ => .sta
  | .staZeroPageX _ => .sta
  | .staAbsolute _ => .sta
  | .staAbsoluteX _ => .sta
  | .staAbsoluteY _ => .sta
  | .staIndirectX _ => .sta
  | .staIndirectY _ => .sta
  | .tax => .tax
  | .inx => .inx

/-- The addressing-mode tag of an instruction's row (R55). -/
def Instr.mode : Instr → Mode
  | .brk => .noneAddressing
  | .aslA => .noneAddressing
  | .andImmediate _ => .immediate
  | .andZeroPage _ => .zeroPage
  | .andZeroPageX _ => .zeroPageX
  | .andAbsolute _ => .absolute
  | .andAbsoluteX _ => .absoluteX
  | .andAbsoluteY _ => .absoluteY
  | .andIndirectX _ => .indirectX
  | .andIndirectY _ => .indirectY
  | .ldaImmediate _ => .immediate
  | .ldaZeroPage _ => .zeroPage
  | .ldaZeroPageX _ => .zeroPageX
  | .ldaAbsolute _ => .absolute
  | .ldaAbsoluteX _ => .absoluteX
  | .ldaAbsoluteY _ => .absoluteY
  | .ldaIndirectX _ => .indirectX
  | .ldaIndirectY _ => .indirectY
  | .staZeroPage _ => .zeroPage
  | .staZeroPageX _ => .zeroPageX
  | .staAbsolute _ => .absolute
  | .staAbsoluteX _ => .absoluteX
  | .staAbsoluteY _ => .absoluteY
  | .staIndirectX _ => .indirectX
  | .staIndirectY _ => .indirectY
  | .tax => .noneAddressing
  | .inx => .noneAddressing

/-- The length in bytes of an instruction's row, the opcode included: in T0 one more than its mode's operand bytes
(R56, R62). -/
def Instr.length (i : Instr) : Nat := 1 + i.mode.operandBytes

end Sys2Proof
end

