-- ==== Sys2Proof/WellFormed.lean ====
section
/-! DEFINITION. Well-formedness: of an opcode table and a configuration (30_encoding.md R54, R56), and of an
instruction relative to a table (the table has a row for it). -/

namespace Sys2Proof

/-- The descriptor's part of R56: `length` is in 1 to 3. (Its mnemonic and mode are tags by their types.) -/
def Descriptor.wf (d : Descriptor) : Bool := decide (1 ≤ d.length) && decide (d.length ≤ 3)

/-- The codes of the list rise strictly from `lo`, and every descriptor is well formed. -/
def OpTable.wfFrom (lo : Nat) : OpTable → Bool
  | [] => true
  | d :: rest => decide (lo ≤ d.code.toNat) && d.wf && OpTable.wfFrom (d.code.toNat + 1) rest

/-- A list of descriptors is an opcode table: at most one descriptor for each opcode byte, written in order of code, so
that equal tables are equal lists (R54: `OPTABLE` is a function), and each descriptor well formed (R56). -/
def OpTable.wf (t : OpTable) : Bool := OpTable.wfFrom 0 t

/-- A configuration is well formed when its table is (R56). -/
def Config.wf (c : Config) : Bool := c.opTable.wf

/-- The descriptor is the row of the instruction, under whatever code. -/
def Descriptor.isRowOf (d : Descriptor) (i : Instr) : Bool :=
  decide (d.mnemonic = i.mnemonic) && decide (d.mode = i.mode) && decide (d.length = i.length)

/-- An instruction is well formed under a table that has a row for it. Every operand value is legal (R58). -/
def Instr.wfIn (t : OpTable) (i : Instr) : Bool := t.any (fun d => d.isRowOf i)

end Sys2Proof
end

