-- ==== Sys2Proof/Decode.lean ====
section
/-! DEFINITION. Decoding and encoding (30_encoding.md R50 to R62): the default table T0, the lookup of an opcode byte
in the configured table, the instruction a table row and its operand bytes stand for, and the encoder. -/

namespace Sys2Proof

/-! ### Byte order (20_memory.md R38: little-endian, always) -/

/-- `zext_16(b)` (00_scope.md section 6.1). -/
def zext16 (b : Byte) : Addr := b.setWidth 16

/-- `{hi, lo}` (00_scope.md section 6.1). -/
def word16 (hi lo : Byte) : Addr := hi ++ lo

/-- Bits 7 to 0 of a 16-bit value. -/
def loByte (w : Addr) : Byte := w.extractLsb' 0 8

/-- Bits 15 to 8 of a 16-bit value. -/
def hiByte (w : Addr) : Byte := w.extractLsb' 8 8

/-! ### The default table T0 (30_encoding.md R55), in order of code -/

/-- The rows of T0 from 0x00 to 0x39. -/
def t0Low : OpTable :=
  [ ⟨0x00, .brk, 1, 7, .noneAddressing⟩,
    ⟨0x0A, .asl, 1, 2, .noneAddressing⟩,
    ⟨0x21, .and, 2, 6, .indirectX⟩,
    ⟨0x25, .and, 2, 3, .zeroPage⟩,
    ⟨0x29, .and, 2, 2, .immediate⟩,
    ⟨0x2D, .and, 3, 4, .absolute⟩,
    ⟨0x31, .and, 2, 5, .indirectY⟩,
    ⟨0x35, .and, 2, 4, .zeroPageX⟩,
    ⟨0x39, .and, 3, 4, .absoluteY⟩ ]

/-- The rows of T0 from 0x3D to 0xA1. -/
def t0Mid : OpTable :=
  [ ⟨0x3D, .and, 3, 4, .absoluteX⟩,
    ⟨0x81, .sta, 2, 6, .indirectX⟩,
    ⟨0x85, .sta, 2, 3, .zeroPage⟩,
    ⟨0x8D, .sta, 3, 4, .absolute⟩,
    ⟨0x91, .sta, 2, 6, .indirectY⟩,
    ⟨0x95, .sta, 2, 4, .zeroPageX⟩,
    ⟨0x99, .sta, 3, 5, .absoluteY⟩,
    ⟨0x9D, .sta, 3, 5, .absoluteX⟩,
    ⟨0xA1, .lda, 2, 6, .indirectX⟩ ]

/-- The rows of T0 from 0xA5 to 0xE8. -/
def t0High : OpTable :=
  [ ⟨0xA5, .lda, 2, 3, .zeroPage⟩,
    ⟨0xA9, .lda, 2, 2, .immediate⟩,
    ⟨0xAA, .tax, 1, 2, .noneAddressing⟩,
    ⟨0xAD, .lda, 3, 4, .absolute⟩,
    ⟨0xB1, .lda, 2, 5, .indirectY⟩,
    ⟨0xB5, .lda, 2, 4, .zeroPageX⟩,
    ⟨0xB9, .lda, 3, 4, .absoluteY⟩,
    ⟨0xBD, .lda, 3, 4, .absoluteX⟩,
    ⟨0xE8, .inx, 1, 2, .noneAddressing⟩ ]

/-- The default opcode table T0. The opcode values other than 0x00, 0xA5, 0xA9, 0xAA and 0xE8 are the spec's own choice
from general knowledge (R55, 93_implementation_defined.md K2; log 3). -/
def t0 : OpTable := t0Low ++ t0Mid ++ t0High

/-- The default configuration: T0, `stub`, `pre_indexed` (92_eei_decisions.md, last section). -/
def Config.default : Config := ⟨t0, .stub, .preIndexed⟩

/-! ### Decoding -/

/-- `OPTABLE(b)`: the descriptor of an opcode byte, or `none` where it is absent. All eight bits are matched and nothing
else is read (R52, R54; 45_control_fsm.md R163). -/
def OpTable.lookup (t : OpTable) (b : Byte) : Option Descriptor := t.find? (fun d => d.code == b)

/-- The AND row with a given mode tag and its operand bytes (R53, R55). -/
def andForm (b1 b2 : Byte) : Mode → Option Instr
  | .immediate => some (.andImmediate b1)
  | .zeroPage => some (.andZeroPage b1)
  | .zeroPageX => some (.andZeroPageX b1)
  | .zeroPageY => none
  | .absolute => some (.andAbsolute (word16 b2 b1))
  | .absoluteX => some (.andAbsoluteX (word16 b2 b1))
  | .absoluteY => some (.andAbsoluteY (word16 b2 b1))
  | .indirectX => some (.andIndirectX b1)
  | .indirectY => some (.andIndirectY b1)
  | .noneAddressing => none

/-- The LDA row with a given mode tag and its operand bytes (R53, R55). -/
def ldaForm (b1 b2 : Byte) : Mode → Option Instr
  | .immediate => some (.ldaImmediate b1)
  | .zeroPage => some (.ldaZeroPage b1)
  | .zeroPageX => some (.ldaZeroPageX b1)
  | .zeroPageY => none
  | .absolute => some (.ldaAbsolute (word16 b2 b1))
  | .absoluteX => some (.ldaAbsoluteX (word16 b2 b1))
  | .absoluteY => some (.ldaAbsoluteY (word16 b2 b1))
  | .indirectX => some (.ldaIndirectX b1)
  | .indirectY => some (.ldaIndirectY b1)
  | .noneAddressing => none

/-- The STA row with a given mode tag and its operand bytes (R53, R55). -/
def staForm (b1 b2 : Byte) : Mode → Option Instr
  | .immediate => none
  | .zeroPage => some (.staZeroPage b1)
  | .zeroPageX => some (.staZeroPageX b1)
  | .zeroPageY => none
  | .absolute => some (.staAbsolute (word16 b2 b1))
  | .absoluteX => some (.staAbsoluteX (word16 b2 b1))
  | .absoluteY => some (.staAbsoluteY (word16 b2 b1))
  | .indirectX => some (.staIndirectX b1)
  | .indirectY => some (.staIndirectY b1)
  | .noneAddressing => none

/-- The instruction of T0 that a descriptor and the two bytes after the opcode stand for, or `none` where the
descriptor's mnemonic, mode and length are those of no row of T0 (possible only in another table, R56). -/
def rowInstr (d : Descriptor) (b1 b2 : Byte) : Option Instr :=
  if d.length = 1 + d.mode.operandBytes then
    match d.mnemonic with
    | .and => andForm b1 b2 d.mode
    | .lda => ldaForm b1 b2 d.mode
    | .sta => staForm b1 b2 d.mode
    | .asl => if d.mode = .noneAddressing then some .aslA else none
    | .tax => if d.mode = .noneAddressing then some .tax else none
    | .inx => if d.mode = .noneAddressing then some .inx else none
    | .brk => if d.mode = .noneAddressing then some .brk else none
  else none

/-- What the dispatcher makes of an opcode byte and the two bytes after it. -/
inductive Decoded where
  /-- The descriptor is a row of T0 (under whatever code the table gives it). -/
  | row (i : Instr)
  /-- The opcode has a descriptor that is no row of T0. -/
  | offRow (d : Descriptor)
  /-- The opcode is absent from the table (R57). -/
  | illegal
  deriving DecidableEq, Repr

/-- Decode at an opcode byte (45_control_fsm.md R163). -/
def decodeAt (t : OpTable) (b0 b1 b2 : Byte) : Decoded :=
  match t.lookup b0 with
  | none => .illegal
  | some d =>
    match rowInstr d b1 b2 with
    | some i => .row i
    | none => .offRow d

/-- Why a byte sequence is not an instruction of T0's rows. -/
inductive DecodeError where
  /-- There is no byte. -/
  | noBytes
  /-- The opcode byte is absent from the table (R57). -/
  | illegalOpcode (opcode : Byte)
  /-- The operand bytes of `i` are not all there (shown with the missing ones as 0). -/
  | truncated (i : Instr)
  /-- The descriptor of the opcode is no row of T0. -/
  | offRow (d : Descriptor)
  deriving DecidableEq, Repr

/-- Decode the instruction at the head of a byte sequence under a table, with the bytes that follow it. -/
def decodeIn (t : OpTable) : List Byte → Except DecodeError (Instr × List Byte)
  | [] => .error .noBytes
  | b0 :: rest =>
    match decodeAt t b0 (rest.getD 0 0) (rest.getD 1 0) with
    | .illegal => .error (.illegalOpcode b0)
    | .offRow d => .error (.offRow d)
    | .row i =>
      if rest.length + 1 < i.length then .error (.truncated i)
      else .ok (i, rest.drop (i.length - 1))

/-- Decode under the default table. -/
def decode (bytes : List Byte) : Except DecodeError (Instr × List Byte) := decodeIn t0 bytes

/-! ### Encoding -/

/-- The opcode byte of an instruction in T0 (R55). -/
def Instr.opcode : Instr → Byte
  | .brk => 0x00
  | .aslA => 0x0A
  | .andImmediate _ => 0x29
  | .andZeroPage _ => 0x25
  | .andZeroPageX _ => 0x35
  | .andAbsolute _ => 0x2D
  | .andAbsoluteX _ => 0x3D
  | .andAbsoluteY _ => 0x39
  | .andIndirectX _ => 0x21
  | .andIndirectY _ => 0x31
  | .ldaImmediate _ => 0xA9
  | .ldaZeroPage _ => 0xA5
  | .ldaZeroPageX _ => 0xB5
  | .ldaAbsolute _ => 0xAD
  | .ldaAbsoluteX _ => 0xBD
  | .ldaAbsoluteY _ => 0xB9
  | .ldaIndirectX _ => 0xA1
  | .ldaIndirectY _ => 0xB1
  | .staZeroPage _ => 0x85
  | .staZeroPageX _ => 0x95
  | .staAbsolute _ => 0x8D
  | .staAbsoluteX _ => 0x9D
  | .staAbsoluteY _ => 0x99
  | .staIndirectX _ => 0x81
  | .staIndirectY _ => 0x91
  | .tax => 0xAA
  | .inx => 0xE8

/-- The operand bytes of an instruction, at increasing addresses: `op8`, or `op16` low byte first (R51). -/
def Instr.operands : Instr → List Byte
  | .brk => []
  | .aslA => []
  | .andImmediate op8 => [op8]
  | .andZeroPage op8 => [op8]
  | .andZeroPageX op8 => [op8]
  | .andAbsolute op16 => [loByte op16, hiByte op16]
  | .andAbsoluteX op16 => [loByte op16, hiByte op16]
  | .andAbsoluteY op16 => [loByte op16, hiByte op16]
  | .andIndirectX op8 => [op8]
  | .andIndirectY op8 => [op8]
  | .ldaImmediate op8 => [op8]
  | .ldaZeroPage op8 => [op8]
  | .ldaZeroPageX op8 => [op8]
  | .ldaAbsolute op16 => [loByte op16, hiByte op16]
  | .ldaAbsoluteX op16 => [loByte op16, hiByte op16]
  | .ldaAbsoluteY op16 => [loByte op16, hiByte op16]
  | .ldaIndirectX op8 => [op8]
  | .ldaIndirectY op8 => [op8]
  | .staZeroPage op8 => [op8]
  | .staZeroPageX op8 => [op8]
  | .staAbsolute op16 => [loByte op16, hiByte op16]
  | .staAbsoluteX op16 => [loByte op16, hiByte op16]
  | .staAbsoluteY op16 => [loByte op16, hiByte op16]
  | .staIndirectX op8 => [op8]
  | .staIndirectY op8 => [op8]
  | .tax => []
  | .inx => []

/-- The bytes of an instruction under T0. -/
def encode (i : Instr) : List Byte := i.opcode :: i.operands

/-- The bytes of an instruction under a table, `none` where no row of the table is the instruction's: the code is that
of the first row with the instruction's mnemonic, mode and length. -/
def encodeIn (t : OpTable) (i : Instr) : Option (List Byte) :=
  (t.find? (fun d => d.isRowOf i)).map (fun d => d.code :: i.operands)

/-! ### The host's numbering of an instruction's bits -/

/-- Byte `k` of a number whose bit 0 is the least significant bit of the first byte. -/
def byteOf (w k : Nat) : Byte := BitVec.ofNat 8 (w / 256 ^ k)

/-- The instruction T0's decoder reads from an instruction whose bits are `w`, of which the low `nbits` count and every
bit above is 0. -/
def decodeTableWord (nbits w : Nat) : Option Instr :=
  match decode [byteOf (w % 2 ^ nbits) 0, byteOf (w % 2 ^ nbits) 1, byteOf (w % 2 ^ nbits) 2] with
  | .ok (i, _) => some i
  | .error _ => none

end Sys2Proof
end

