-- ==== Sys2Proof/Machine/State.lean ====
section
/-! DEFINITION. The state of the machine (10_state.md, the tuple of its section 1), what an access may be stopped
with, and the state after reset. -/

namespace Sys2Proof.Machine

/-- The two states of the control machine (10_state.md R15). -/
inductive Fsm where
  | running | halted
  deriving DecidableEq, Repr

/-- The five values of `halt_cause` (10_state.md R16). -/
inductive HaltCause where
  | none | brk | illegalOpcode | addrModeFault | loadRejected
  deriving DecidableEq, Repr

/-- The attached memory `M` (20_memory.md R30): the cells that do not hold 0x00, addresses strictly rising. An address
that is not listed holds 0x00, as every cell does after power-on. -/
abbrev Memory := List Host.Cell

/-- The entries' addresses rise strictly from `lo`, lie below 65536, and no entry is 0x00. -/
def Memory.wfFrom (lo : Nat) : Memory → Bool
  | [] => true
  | (k, b) :: rest => decide (lo ≤ k) && decide (k < 65536) && decide (b ≠ 0) && Memory.wfFrom (k + 1) rest

/-- The canonical form of memory: equal memories are equal lists. -/
def Memory.wf (m : Memory) : Bool := Memory.wfFrom 0 m

/-- The state. Its first eight fields are the spec's tuple `(A, X, Y, P, pc, fsm, halt_cause, M)`; `config` is the
model's own: the configuration parameters of 00_scope.md R3, which no step and no host operation writes (log 1). -/
structure State where
  /-- The accumulator `A` (R10). -/
  a : Byte
  /-- Index register `X` (R11). -/
  x : Byte
  /-- Index register `Y` (R12). -/
  y : Byte
  /-- The status register `P` (R13). -/
  p : Byte
  /-- The program counter (R14). -/
  pc : Addr
  /-- `Running` or `Halted` (R15). -/
  fsm : Fsm
  /-- Why the machine is halted (R16). -/
  haltCause : HaltCause
  /-- The memory `M` (R30). -/
  mem : Memory
  /-- The configuration (00_scope.md R3). -/
  config : Config
  deriving DecidableEq, Repr

/-- There is no fault: no access and no arithmetic of this block fails (60_exceptions.md R190), and every terminal event
is a next state with its cause in `halt_cause`. The type is empty, so no step and no meaning ever faults (log 12). -/
inductive Fault where
  deriving DecidableEq, Repr

/-- What the model refuses. -/
inductive Refusal where
  /-- An instruction without a meaning yet; raised by exec's arms only. Safe. -/
  | notModelled (mnemonic : String)
  /-- The configured table is not well formed (30_encoding.md R56: "A model refuses a table with `length = 0` or
  `length > 3`"); raised by `step`. Safe. -/
  | illFormedTable
  /-- A host operation while `Running` (20_memory.md R46, 45_control_fsm.md R170, 70_reset_and_hazards.md R211, R217);
  raised by the host operations, never by a step. Unsafe only for a platform that breaks this discipline (log 7). -/
  | hostWhileRunning
  deriving DecidableEq, Repr

/-- The outcome of a step or of a host operation of this machine. -/
abbrev StepResult := Host.Outcome State Fault Refusal

/-- Power-on (70_reset_and_hazards.md R210, 10_state.md R18) of a machine with configuration `c`. -/
def State.powerOn (c : Config) : State :=
  { a := 0, x := 0, y := 0, p := 0, pc := 0, fsm := .halted, haltCause := .none, mem := [], config := c }

/-- The machine right after reset: power-on of the default configuration. The `Reset` operation (R211) leaves this state
as it is (95_test_vectors.md V-RST-1). -/
def State.reset : State := State.powerOn Config.default

end Sys2Proof.Machine
end

