-- ==== Sys2Proof/Machine/Ops.lean ====
section
/-! DEFINITION. The named operations over memory and the program counter, and taking a terminal event (20_memory.md
R31 to R35, 45_control_fsm.md R162, R166, 60_exceptions.md R190). -/

namespace Sys2Proof.Machine

/-! ### Memory -/

/-- What an address that is not listed holds (20_memory.md R30: all cells hold 0x00 after power-on). -/
def unlisted : Byte := 0

/-- The cell at a numeric address. -/
def Memory.readAt : Memory → Nat → Byte
  | [], _ => unlisted
  | (k, b) :: rest, n => if n < k then unlisted else if n = k then b else Memory.readAt rest n

/-- Write a cell, keeping the canonical form: writing what an unlisted address holds removes the entry. (The `dropWhile`
drops nothing from a canonical memory; it makes the read-after-write law hold of every list.) -/
def Memory.writeAt : Memory → Nat → Byte → Memory
  | [], n, v => if v = unlisted then [] else [(n, v)]
  | (k, b) :: rest, n, v =>
    if n < k then (if v = unlisted then (k, b) :: rest else (n, v) :: (k, b) :: rest)
    else if n = k then (if v = unlisted then rest.dropWhile (fun c => decide (c.1 ≤ n)) else (n, v) :: rest)
    else (k, b) :: Memory.writeAt rest n v

/-- `MemRead(addr, 1)` (R31). -/
def Memory.read (m : Memory) (addr : Addr) : Byte := m.readAt addr.toNat

/-- `MemWrite(addr, 1, v)` (R32). -/
def Memory.write (m : Memory) (addr : Addr) (v : Byte) : Memory := m.writeAt addr.toNat v

/-- `MemRead(addr, 2)` (R33): little-endian, the second address modulo 65536. -/
def Memory.read16 (m : Memory) (addr : Addr) : Addr := word16 (m.read (addr + 1)) (m.read addr)

/-- `MemWrite(addr, 2, v)` (R34). -/
def Memory.write16 (m : Memory) (addr : Addr) (v : Addr) : Memory :=
  (m.write addr (loByte v)).write (addr + 1) (hiByte v)

/-- `ZpRead16(p)` (R35): the second address wraps inside the zero page. -/
def Memory.zpRead16 (m : Memory) (p : Byte) : Addr := word16 (m.read (zext16 (p + 1))) (m.read (zext16 p))

/-! ### The program counter -/

/-- The opcode fetch's increment (R162): the handler sees `pc` at the first operand byte. -/
def State.fetched (s : State) : State := { s with pc := s.pc + 1 }

/-- The advance at the end of a step, by `length - 1` (R166). -/
def State.advance (length : Nat) (s : State) : State := { s with pc := s.pc + BitVec.ofNat 16 (length - 1) }

/-- One non-BRK instruction from the step boundary: the fetch increment, the handler, the advance (R161). -/
def completes (length : Nat) (handler : State → State) (s : State) : StepResult :=
  .next ((handler s.fetched).advance length)

/-! ### Terminal events -/

/-- `raise <cause>` (60_exceptions.md R190): nothing is saved, control goes nowhere, no other state changes (R193). There
is no return from it (R194); only the host's `Run` leaves `Halted`. -/
def State.raise (cause : HaltCause) (s : State) : State := { s with fsm := .halted, haltCause := cause }

end Sys2Proof.Machine
end

