-- ==== Sys2Proof/Machine/Flags.lean ====
section
/-! DEFINITION. The status flag unit (41_flags.md R90 to R96) and the logical and shift unit (42_logical_shift.md
R100). -/

namespace Sys2Proof.Machine

/-- The Zero flag, bit 1 of `P` (10_state.md R13). -/
def flagZ (p : Byte) : Bool := p.getLsbD 1

/-- The Negative flag, bit 7 of `P` (10_state.md R13). -/
def flagN (p : Byte) : Bool := p.getLsbD 7

/-- The Carry flag, bit 0 of `P`, defined only when `ASL_VARIANT = complete` (10_state.md R20). -/
def flagC (p : Byte) : Bool := p.getLsbD 0

/-- `update_zero_flag(v)` (R90). -/
def updateZero (v p : Byte) : Byte := (p &&& 0xFD) ||| (if v = 0 then 0x02 else 0x00)

/-- `update_negative_flag(v)` (R91). -/
def updateNegative (v p : Byte) : Byte := (p &&& 0x7F) ||| (v &&& 0x80)

/-- `update_carry_flag(c)` (R96), called only by ASL A in the `complete` variant. -/
def updateCarry (c : Bool) (p : Byte) : Byte := (p &&& 0xFE) ||| (if c then 0x01 else 0x00)

/-- `SetZN(v)` (R92): the pair, Zero first. -/
def State.setZN (v : Byte) (s : State) : State := { s with p := updateNegative v (updateZero v s.p) }

/-! ### `alu_logical_shift` (R100) -/

/-- Bitwise AND. -/
def and8 (u v : Byte) : Byte := u &&& v

/-- Pass-through. -/
def pass8 (u : Byte) : Byte := u

/-- Increment modulo 256; no carry out is kept. -/
def inc8 (u : Byte) : Byte := u + 1

/-- Shift left by one: the result with bit 0 clear, and the bit shifted out. -/
def shl1 (u : Byte) : Byte × Bool := (u <<< 1, u.getLsbD 7)

end Sys2Proof.Machine
end

