-- ==== Sys2Proof/Machine/Operands.lean ====
section
/-! DEFINITION. The addressing resolver (40_addressing.md R70 to R84). Each mode's effective address is a function of
its operand; `resolve` takes the operand from memory at `pc`, as the handlers of a step do. No mode writes anything
(R70, R82, R84). -/

namespace Sys2Proof.Machine

/-- ZeroPage (R72). -/
def eaZeroPage (op8 : Byte) : Addr := zext16 op8

/-- ZeroPage_X (R73): the 8-bit sum wraps inside the zero page. -/
def eaZeroPageX (op8 : Byte) (s : State) : Addr := zext16 (op8 + s.x)

/-- ZeroPage_Y (R74). -/
def eaZeroPageY (op8 : Byte) (s : State) : Addr := zext16 (op8 + s.y)

/-- Absolute (R75). -/
def eaAbsolute (op16 : Addr) : Addr := op16

/-- Absolute_X (R76): a 16-bit sum. -/
def eaAbsoluteX (op16 : Addr) (s : State) : Addr := op16 + zext16 s.x

/-- Absolute_Y (R77). -/
def eaAbsoluteY (op16 : Addr) (s : State) : Addr := op16 + zext16 s.y

/-- Indirect_X (R78): index, then read the pointer. -/
def eaIndirectX (op8 : Byte) (s : State) : Addr := s.mem.zpRead16 (op8 + s.x)

/-- Indirect_Y (R79 `pre_indexed`, R80 `post_indexed`). -/
def eaIndirectY (op8 : Byte) (s : State) : Addr :=
  match s.config.indyVariant with
  | .preIndexed => s.mem.zpRead16 (op8 + s.y)
  | .postIndexed => s.mem.zpRead16 op8 + zext16 s.y

/-- `op8`, read at the `pc` the handler sees (30_encoding.md R53). -/
def State.operand8 (s : State) : Byte := s.mem.read s.pc

/-- `op16`, read at the `pc` the handler sees (30_encoding.md R53). -/
def State.operand16 (s : State) : Addr := s.mem.read16 s.pc

/-- `Resolve(mode)` (R70): the effective address, or `none` for `error` (R81). `pc` is at the first operand byte. -/
def resolve (mode : Mode) (s : State) : Option Addr :=
  match mode with
  | .immediate => some s.pc
  | .zeroPage => some (eaZeroPage s.operand8)
  | .zeroPageX => some (eaZeroPageX s.operand8 s)
  | .zeroPageY => some (eaZeroPageY s.operand8 s)
  | .absolute => some (eaAbsolute s.operand16)
  | .absoluteX => some (eaAbsoluteX s.operand16 s)
  | .absoluteY => some (eaAbsoluteY s.operand16 s)
  | .indirectX => some (eaIndirectX s.operand8 s)
  | .indirectY => some (eaIndirectY s.operand8 s)
  | .noneAddressing => none

end Sys2Proof.Machine
end

