-- ==== Sys2Proof/Machine/LoadStore.lean ====
section
/-! DEFINITION. LDA and STA (43_load_store.md R120 to R137). -/

namespace Sys2Proof.Machine

/-- LDA of a memory byte (R120): `A` takes it, Z and N from the new `A`. -/
def loadA (m : Byte) (s : State) : State := State.setZN (pass8 m) { s with a := pass8 m }

/-- LDA of the byte at an effective address (R120). -/
def loadAt (ea : Addr) (s : State) : State := loadA (s.mem.read ea) s

/-- STA to an effective address (R130): one cell written, no flag. -/
def storeAt (ea : Addr) (s : State) : State := { s with mem := s.mem.write ea (pass8 s.a) }

/-- LDA Immediate (R121): the operand byte is the value (30_encoding.md R51, 40_addressing.md R71; log 6). -/
def execLdaImmediate (op8 : Byte) (s : State) : StepResult := completes 2 (loadA op8) s

/-- LDA ZeroPage (R122). -/
def execLdaZeroPage (op8 : Byte) (s : State) : StepResult := completes 2 (fun t => loadAt (eaZeroPage op8) t) s

/-- LDA ZeroPageX (R123). -/
def execLdaZeroPageX (op8 : Byte) (s : State) : StepResult := completes 2 (fun t => loadAt (eaZeroPageX op8 t) t) s

/-- LDA Absolute (R124). -/
def execLdaAbsolute (op16 : Addr) (s : State) : StepResult := completes 3 (fun t => loadAt (eaAbsolute op16) t) s

/-- LDA AbsoluteX (R125). -/
def execLdaAbsoluteX (op16 : Addr) (s : State) : StepResult := completes 3 (fun t => loadAt (eaAbsoluteX op16 t) t) s

/-- LDA AbsoluteY (R126). -/
def execLdaAbsoluteY (op16 : Addr) (s : State) : StepResult := completes 3 (fun t => loadAt (eaAbsoluteY op16 t) t) s

/-- LDA IndirectX (R127). -/
def execLdaIndirectX (op8 : Byte) (s : State) : StepResult := completes 2 (fun t => loadAt (eaIndirectX op8 t) t) s

/-- LDA IndirectY (R128). -/
def execLdaIndirectY (op8 : Byte) (s : State) : StepResult := completes 2 (fun t => loadAt (eaIndirectY op8 t) t) s

/-- STA ZeroPage (R131). -/
def execStaZeroPage (op8 : Byte) (s : State) : StepResult := completes 2 (fun t => storeAt (eaZeroPage op8) t) s

/-- STA ZeroPageX (R132). -/
def execStaZeroPageX (op8 : Byte) (s : State) : StepResult := completes 2 (fun t => storeAt (eaZeroPageX op8 t) t) s

/-- STA Absolute (R133). -/
def execStaAbsolute (op16 : Addr) (s : State) : StepResult := completes 3 (fun t => storeAt (eaAbsolute op16) t) s

/-- STA AbsoluteX (R134). -/
def execStaAbsoluteX (op16 : Addr) (s : State) : StepResult := completes 3 (fun t => storeAt (eaAbsoluteX op16 t) t) s

/-- STA AbsoluteY (R135). -/
def execStaAbsoluteY (op16 : Addr) (s : State) : StepResult := completes 3 (fun t => storeAt (eaAbsoluteY op16 t) t) s

/-- STA IndirectX (R136). -/
def execStaIndirectX (op8 : Byte) (s : State) : StepResult := completes 2 (fun t => storeAt (eaIndirectX op8 t) t) s

/-- STA IndirectY (R137). -/
def execStaIndirectY (op8 : Byte) (s : State) : StepResult := completes 2 (fun t => storeAt (eaIndirectY op8 t) t) s

end Sys2Proof.Machine
end

