-- ==== Sys2Proof/Machine/Logical.lean ====
section
/-! DEFINITION. AND and ASL A (42_logical_shift.md R100 to R112). -/

namespace Sys2Proof.Machine

/-- AND with a memory byte (R101): Z and N from the result, which is NOT stored into `A`. -/
def andWith (m : Byte) (s : State) : State := s.setZN (and8 m s.a)

/-- AND with the byte at an effective address (R101). -/
def andAt (ea : Addr) (s : State) : State := andWith (s.mem.read ea) s

/-- AND Immediate (R102): the operand byte is the value (30_encoding.md R51, 40_addressing.md R71; log 6). -/
def execAndImmediate (op8 : Byte) (s : State) : StepResult := completes 2 (andWith op8) s

/-- AND ZeroPage (R103). -/
def execAndZeroPage (op8 : Byte) (s : State) : StepResult := completes 2 (fun t => andAt (eaZeroPage op8) t) s

/-- AND ZeroPageX (R104). -/
def execAndZeroPageX (op8 : Byte) (s : State) : StepResult := completes 2 (fun t => andAt (eaZeroPageX op8 t) t) s

/-- AND Absolute (R105). -/
def execAndAbsolute (op16 : Addr) (s : State) : StepResult := completes 3 (fun t => andAt (eaAbsolute op16) t) s

/-- AND AbsoluteX (R106). -/
def execAndAbsoluteX (op16 : Addr) (s : State) : StepResult := completes 3 (fun t => andAt (eaAbsoluteX op16 t) t) s

/-- AND AbsoluteY (R107). -/
def execAndAbsoluteY (op16 : Addr) (s : State) : StepResult := completes 3 (fun t => andAt (eaAbsoluteY op16 t) t) s

/-- AND IndirectX (R108). -/
def execAndIndirectX (op8 : Byte) (s : State) : StepResult := completes 2 (fun t => andAt (eaIndirectX op8 t) t) s

/-- AND IndirectY (R109). -/
def execAndIndirectY (op8 : Byte) (s : State) : StepResult := completes 2 (fun t => andAt (eaIndirectY op8 t) t) s

/-- The handler of ASL A: R110 when `ASL_VARIANT = stub` (the shift is computed and discarded), R111 when `complete`. -/
def shiftA (s : State) : State :=
  match s.config.aslVariant with
  | .stub => s
  | .complete =>
    let rc := shl1 s.a
    State.setZN rc.1 { s with a := rc.1, p := updateCarry rc.2 s.p }

/-- ASL A (R112). -/
def execAslA (s : State) : StepResult := completes 1 shiftA s

end Sys2Proof.Machine
end

