-- ==== Sys2Proof/Machine/Register.lean ====
section
/-! DEFINITION. TAX and INX (44_register_ops.md R150, R151). -/

namespace Sys2Proof.Machine

/-- The handler of TAX (R150). -/
def transferAX (s : State) : State := State.setZN (pass8 s.a) { s with x := pass8 s.a }

/-- TAX (R150). -/
def execTax (s : State) : StepResult := completes 1 transferAX s

/-- The handler of INX (R151). -/
def incrementX (s : State) : State := State.setZN (inc8 s.x) { s with x := inc8 s.x }

/-- INX (R151). -/
def execInx (s : State) : StepResult := completes 1 incrementX s

end Sys2Proof.Machine
end

