-- ==== Sys2Proof/Machine/Control.lean ====
section
/-! DEFINITION. BRK, and a step's dispatch by descriptor as 45_control_fsm.md R161 writes it, for any well-formed
table. -/

namespace Sys2Proof.Machine

/-- BRK (R165): after the fetch increment the run ends with cause `brk`; `pc` is not advanced further. -/
def execBrk (s : State) : StepResult := .next (s.fetched.raise .brk)

/-- The handler of a mnemonic, given the descriptor's mode (R164); `none` where its `Resolve` returned `error` (R168).
Only AND, LDA and STA call the resolver (40_addressing.md R81). -/
def handler (mnemonic : Mnemonic) (mode : Mode) (s : State) : Option State :=
  match mnemonic with
  | .and => (resolve mode s).map (fun ea => andAt ea s)
  | .asl => some (shiftA s)
  | .lda => (resolve mode s).map (fun ea => loadAt ea s)
  | .sta => (resolve mode s).map (fun ea => storeAt ea s)
  | .tax => some (transferAX s)
  | .inx => some (incrementX s)
  | .brk => some s

/-- Actions 1, 3, 4 and 5 of `Step` (R161) for a descriptor the lookup found: fetch increment, handler, halt test,
advance by the descriptor's `length`. -/
def runDescriptor (d : Descriptor) (s : State) : State :=
  match handler d.mnemonic d.mode s.fetched with
  | none => s.fetched.raise .addrModeFault
  | some t => if d.mnemonic = .brk then t.raise .brk else t.advance d.length

end Sys2Proof.Machine
end

