-- ==== Sys2Proof/Machine/Dispatch.lean ====
section
/-! DEFINITION. One arm per instruction. -/

namespace Sys2Proof.Machine

def exec (i : Instr) (s : State) : Host.Outcome State Fault Refusal :=
  match i with
  | .brk => Sys2Proof.Machine.execBrk s
  | .aslA => Sys2Proof.Machine.execAslA s
  | .andImmediate op8 => Sys2Proof.Machine.execAndImmediate op8 s
  | .andZeroPage op8 => Sys2Proof.Machine.execAndZeroPage op8 s
  | .andZeroPageX op8 => Sys2Proof.Machine.execAndZeroPageX op8 s
  | .andAbsolute op16 => Sys2Proof.Machine.execAndAbsolute op16 s
  | .andAbsoluteX op16 => Sys2Proof.Machine.execAndAbsoluteX op16 s
  | .andAbsoluteY op16 => Sys2Proof.Machine.execAndAbsoluteY op16 s
  | .andIndirectX op8 => Sys2Proof.Machine.execAndIndirectX op8 s
  | .andIndirectY op8 => Sys2Proof.Machine.execAndIndirectY op8 s
  | .ldaImmediate op8 => Sys2Proof.Machine.execLdaImmediate op8 s
  | .ldaZeroPage op8 => Sys2Proof.Machine.execLdaZeroPage op8 s
  | .ldaZeroPageX op8 => Sys2Proof.Machine.execLdaZeroPageX op8 s
  | .ldaAbsolute op16 => Sys2Proof.Machine.execLdaAbsolute op16 s
  | .ldaAbsoluteX op16 => Sys2Proof.Machine.execLdaAbsoluteX op16 s
  | .ldaAbsoluteY op16 => Sys2Proof.Machine.execLdaAbsoluteY op16 s
  | .ldaIndirectX op8 => Sys2Proof.Machine.execLdaIndirectX op8 s
  | .ldaIndirectY op8 => Sys2Proof.Machine.execLdaIndirectY op8 s
  | .staZeroPage op8 => Sys2Proof.Machine.execStaZeroPage op8 s
  | .staZeroPageX op8 => Sys2Proof.Machine.execStaZeroPageX op8 s
  | .staAbsolute op16 => Sys2Proof.Machine.execStaAbsolute op16 s
  | .staAbsoluteX op16 => Sys2Proof.Machine.execStaAbsoluteX op16 s
  | .staAbsoluteY op16 => Sys2Proof.Machine.execStaAbsoluteY op16 s
  | .staIndirectX op8 => Sys2Proof.Machine.execStaIndirectX op8 s
  | .staIndirectY op8 => Sys2Proof.Machine.execStaIndirectY op8 s
  | .tax => Sys2Proof.Machine.execTax s
  | .inx => Sys2Proof.Machine.execInx s

end Sys2Proof.Machine
end

