-- ==== Sys2Proof/Machine/Fetch.lean ====
section
/-! DEFINITION. Fetching and decoding at the program counter (45_control_fsm.md R162, R163). -/

namespace Sys2Proof.Machine

/-- Decode the byte at `pc` under the configured table, with the two bytes after it at hand for its operands (30_encoding.md
R53; addresses modulo 65536, R39). Reading bytes the instruction does not have changes nothing (20_memory.md R31, R40). -/
def State.fetchDecode (s : State) : Decoded :=
  decodeAt s.config.opTable (s.mem.read s.pc) (s.mem.read (s.pc + 1)) (s.mem.read (s.pc + 2))

/-- The three bytes of `w`, least significant first, stored at increasing addresses from `addr`. -/
def Memory.placeWord (m : Memory) (addr : Addr) (w : Nat) : Memory :=
  ((m.write addr (byteOf w 0)).write (addr + 1) (byteOf w 1)).write (addr + 2) (byteOf w 2)

end Sys2Proof.Machine
end

