-- ==== Sys2Proof/Machine/Step.lean ====
section
/-! DEFINITION. One step of the machine (45_control_fsm.md R161, R169). -/

namespace Sys2Proof.Machine

/-- `Step` (R161). On a `Halted` machine no `Step` occurs and no state changes by itself (R169), so the answer is the
same state (log 4). A table that is not well formed is refused (30_encoding.md R56). A descriptor that is a row of T0 runs
its instruction's meaning; any other runs by the same pseudocode over the descriptor. -/
def step (s : State) : Host.Outcome State Fault Refusal :=
  match s.fsm with
  | .halted => .next s
  | .running =>
    if s.config.wf then
      match s.fetchDecode with
      | .illegal => .next (s.fetched.raise .illegalOpcode)
      | .row i => exec i s
      | .offRow d => .next (runDescriptor d s)
    else .refused .illFormedTable

/-- `s` with the instruction whose bits are `w` (the low `nbits` of them; zeros above) placed at `pc`, and the machine
`Running` there, so that the next step runs it. It stands for the host's `Run` having loaded a program that has come to
this instruction (log 5). -/
def State.withFetchWord (s : State) (nbits w : Nat) : State :=
  { s with
    mem := s.mem.placeWord s.pc (w % 2 ^ nbits)
    fsm := .running
    haltCause := .none }

end Sys2Proof.Machine
end

