-- ==== Sys2Proof/Machine/HostInterface.lean ====
section
/-! DEFINITION. The host's operations (70_reset_and_hazards.md R215): `write`, `read`, `Reset`, `Run` and the read-out of
all state, each enabled only while `Halted`; program load (20_memory.md R36, R37) and the dispatch loop of `Run`
(45_control_fsm.md R170). -/

namespace Sys2Proof.Machine

/-- `LOAD_BASE` (00_scope.md R3). -/
def loadBase : Addr := 0x8000

/-- `RESET_VECTOR`, the address of its low byte (00_scope.md R3, 70_reset_and_hazards.md R213). -/
def resetVector : Addr := 0xFFFC

/-- `MAX_PROGRAM_LEN` (00_scope.md R3). -/
def maxProgramLen : Nat := 0x8000

/-- Bytes written in increasing order from an address. -/
def Memory.writeBytes (m : Memory) (addr : Addr) : List Byte → Memory
  | [] => m
  | b :: rest => (m.write addr b).writeBytes (addr + 1) rest

/-- `Load(program)` for a program that is not too long (R36): the copy, then the vector. -/
def Memory.load (m : Memory) (program : List Byte) : Memory :=
  (m.writeBytes loadBase program).write16 resetVector loadBase

/-- The `Reset` operation (R211): `A`, `X`, `P` cleared, `pc` from the vector; `Y`, memory, `fsm` and `halt_cause` are not
written. -/
def State.applyReset (s : State) : State := { s with a := 0, x := 0, p := 0, pc := s.mem.read16 resetVector }

/-- `Run(program)` up to its loop (R170): a program longer than `MAX_PROGRAM_LEN` is rejected (R37); otherwise load,
`Reset`, enter `Running`. -/
def State.beginRun (program : List Byte) (s : State) : State :=
  if maxProgramLen < program.length then s.raise .loadRejected
  else { State.applyReset { s with mem := s.mem.load program } with fsm := .running, haltCause := .none }

/-- The host's operations that change state (10_state.md R24; power-on is `State.powerOn`). `run` is `Run` up to the first
step; the steps are `step`. -/
inductive HostOp where
  | write (addr : Addr) (v : Byte)
  | reset
  | run (program : List Byte)
  deriving DecidableEq, Repr

/-- What an operation does to a `Halted` machine. -/
def HostOp.apply : HostOp → State → State
  | .write addr v, s => { s with mem := s.mem.write addr v }
  | .reset, s => s.applyReset
  | .run program, s => s.beginRun program

/-- A host operation; refused while `Running` (20_memory.md R46, 45_control_fsm.md R170, 70_reset_and_hazards.md R217). -/
def hostStep (op : HostOp) (s : State) : StepResult :=
  match s.fsm with
  | .halted => .next (op.apply s)
  | .running => .refused .hostWhileRunning

/-- The host's `read(addr)` (20_memory.md R31, R46). -/
def hostRead (addr : Addr) (s : State) : Except Refusal Byte :=
  match s.fsm with
  | .halted => .ok (s.mem.read addr)
  | .running => .error .hostWhileRunning

/-- The host's read-out of every piece of state (10_state.md R25). -/
def hostInspect (s : State) : Except Refusal State :=
  match s.fsm with
  | .halted => .ok s
  | .running => .error .hostWhileRunning

/-- The loop of `Run` under fuel (R170, R172; 92_eei_decisions.md D29): steps while `Running`. With the fuel spent on a
machine still `Running`, the answer is that `Running` state; it is no machine outcome (log 8). -/
def dispatchLoop : Nat → State → StepResult
  | 0, s => .next s
  | fuel + 1, s =>
    match s.fsm with
    | .halted => .next s
    | .running =>
      match step s with
      | .next t => dispatchLoop fuel t
      | .fault r => .fault r
      | .refused r => .refused r

/-- `Run(program)` (R170) under fuel. -/
def run (fuel : Nat) (program : List Byte) (s : State) : StepResult :=
  match hostStep (.run program) s with
  | .next t => dispatchLoop fuel t
  | .fault r => .fault r
  | .refused r => .refused r

end Sys2Proof.Machine
end

