-- ==== Sys2Proof/Safety.lean ====
section
/-! DEFINITION. What claims are stated in: the invariants, and the states that power-on, host operations and steps
reach (10_state.md R24). -/

namespace Sys2Proof.Machine

/-- The invariant of every step and every host operation: memory is in canonical form, the table is well formed, and a
`Running` machine has cause `none` (10_state.md R16). -/
abbrev Inv (s : State) : Prop :=
  s.mem.wf = true ∧ s.config.wf = true ∧ (s.fsm = .running → s.haltCause = .none)

/-- The reserved bits of `P` (10_state.md R13, R20): 0 and 2 to 6, or 2 to 6 when bit 0 is the Carry flag. -/
def reservedBits : AslVariant → Byte
  | .stub => 0x7D
  | .complete => 0x7C

/-- What holds of the registers in every state reached from power-on: `Y` is 0x00 (R12), the reserved bits of `P` are 0
(R13), and Z and N are not both 1 (41_flags.md R93). -/
abbrev RegInv (s : State) : Prop :=
  s.y = 0 ∧ s.p &&& reservedBits s.config.aslVariant = 0 ∧ ¬(flagZ s.p = true ∧ flagN s.p = true)

/-- The states that host operations and steps lead to from `start` (10_state.md R24). -/
inductive ReachableFrom (start : State → Prop) : State → Prop where
  | base {s : State} (h : start s) : ReachableFrom start s
  | host {s t : State} (op : HostOp) (hs : ReachableFrom start s) (h : hostStep op s = .next t) : ReachableFrom start t
  | step {s t : State} (hs : ReachableFrom start s) (h : step s = .next t) : ReachableFrom start t

/-- The states reached from power-on with configuration `c`. -/
def Reachable (c : Config) : State → Prop := ReachableFrom (fun s => s = State.powerOn c)

/-- The states reached after at least one `Run` from power-on with configuration `c`. -/
def ReachableAfterRun (c : Config) : State → Prop :=
  ReachableFrom (fun t => ∃ s program, Reachable c s ∧ hostStep (.run program) s = .next t)

end Sys2Proof.Machine
end

