-- ==== Sys2Proof/Certificates/Slice0/Obligations.lean ====
section
/-! DEFINITION. The statements for the provers. Each docstring names the rule of spec/ it formalises. -/

namespace Sys2Proof.Spec

open Sys2Proof.Machine

/-- `P` after `SetZN(v)`, by the closed formula of 41_flags.md R92. -/
def setZN (p v : Byte) : Byte := (p &&& 0x7D) ||| (v &&& 0x80) ||| (if v = 0 then 0x02 else 0x00)

/-- The 16-bit value at a zero-page pointer `p` (20_memory.md R35), written over byte reads. -/
def pointer (m : Memory) (p : Byte) : Addr := m.read ((p + 1).setWidth 16) ++ m.read (p.setWidth 16)

/-- The state an AND of memory byte `m` and length `len` leaves (42_logical_shift.md R101): `A` keeps its value. -/
def afterAnd (m : Byte) (len : Nat) (s : State) : State :=
  { s with p := setZN s.p (m &&& s.a), pc := s.pc + BitVec.ofNat 16 len }

/-- The state an LDA of memory byte `m` and length `len` leaves (43_load_store.md R120). -/
def afterLda (m : Byte) (len : Nat) (s : State) : State :=
  { s with a := m, p := setZN s.p m, pc := s.pc + BitVec.ofNat 16 len }

/-- `t` is `s` with `A` stored at `ea`, every other byte as before, and `pc` moved by `len` (43_load_store.md R130). -/
def StoredAt (ea : Addr) (len : Nat) (s t : State) : Prop :=
  (∀ b, t.mem.read b = if b = ea then s.a else s.mem.read b) ∧
  { t with mem := s.mem } = { s with pc := s.pc + BitVec.ofNat 16 len }

/-- `s` ended by a terminal event of a step: only `pc`, `fsm` and `halt_cause` differ (60_exceptions.md R190, R193). -/
def ended (cause : HaltCause) (s : State) : State :=
  { s with pc := s.pc + 1, fsm := .halted, haltCause := cause }

/-- The resolver's table of 40_addressing.md (under R70), written over byte reads. -/
def resolve (mode : Mode) (s : State) : Option Addr :=
  let b := s.mem.read s.pc
  let w := s.mem.read (s.pc + 1) ++ s.mem.read s.pc
  match mode with
  | .immediate => some s.pc
  | .zeroPage => some (b.setWidth 16)
  | .zeroPageX => some ((b + s.x).setWidth 16)
  | .zeroPageY => some ((b + s.y).setWidth 16)
  | .absolute => some w
  | .absoluteX => some (w + s.x.setWidth 16)
  | .absoluteY => some (w + s.y.setWidth 16)
  | .indirectX => some (pointer s.mem (b + s.x))
  | .indirectY =>
    if s.config.indyVariant = .preIndexed then some (pointer s.mem (b + s.y))
    else some (pointer s.mem b + s.y.setWidth 16)
  | .noneAddressing => none

/-- The handlers of 45_control_fsm.md R161's `case`, each from its own rule's pseudocode; `none` where `Resolve` returned
`error`. -/
def handle (d : Descriptor) (s : State) : Option State :=
  match d.mnemonic with
  | .and => (resolve d.mode s).map fun ea => { s with p := setZN s.p (s.mem.read ea &&& s.a) }
  | .asl =>
    if s.config.aslVariant = .stub then some s
    else some { s with
      a := BitVec.ofNat 8 (s.a.toNat * 2)
      p := setZN ((s.p &&& 0xFE) ||| (if s.a.getLsbD 7 then 1 else 0)) (BitVec.ofNat 8 (s.a.toNat * 2)) }
  | .lda => (resolve d.mode s).map fun ea => { s with a := s.mem.read ea, p := setZN s.p (s.mem.read ea) }
  | .sta => (resolve d.mode s).map fun ea => { s with mem := s.mem.write ea s.a }
  | .tax => some { s with x := s.a, p := setZN s.p s.a }
  | .inx => some { s with x := s.x + 1, p := setZN s.p (s.x + 1) }
  | .brk => some s

/-- The pseudocode of `Step` (45_control_fsm.md R161), transcribed over the descriptor. -/
def step (s : State) : State :=
  match s.config.opTable.lookup (s.mem.read s.pc) with
  | none => ended .illegalOpcode s
  | some d =>
    match handle d { s with pc := s.pc + 1 } with
    | none => ended .addrModeFault s
    | some t =>
      if d.mnemonic = .brk then ended .brk s
      else { t with pc := t.pc + BitVec.ofNat 16 (d.length - 1) }

/-- The opcode bytes that 30_encoding.md R57 lists as illegal under T0, as inclusive ranges. -/
def illegalRanges : List (Nat × Nat) :=
  [ (0x01, 0x09), (0x0B, 0x20), (0x22, 0x24), (0x26, 0x28), (0x2A, 0x2C), (0x2E, 0x30), (0x32, 0x34), (0x36, 0x38),
    (0x3A, 0x3C), (0x3E, 0x80), (0x82, 0x84), (0x86, 0x8C), (0x8E, 0x90), (0x92, 0x94), (0x96, 0x98), (0x9A, 0x9C) ] ++
  [ (0x9E, 0xA0), (0xA2, 0xA4), (0xA6, 0xA8), (0xAB, 0xAC), (0xAE, 0xB0), (0xB2, 0xB4), (0xB6, 0xB8), (0xBA, 0xBC),
    (0xBE, 0xE7), (0xE9, 0xFF) ]

/-- A `Running` machine with a well-formed table: the states in which `Step` is defined (45_control_fsm.md R161). -/
abbrev Ready (s : State) : Prop := s.fsm = .running ∧ s.config.wf = true

/-- The descriptor of the opcode byte at `pc` is `d`. -/
abbrev At (d : Descriptor) (s : State) : Prop := s.config.opTable.lookup (s.mem.read s.pc) = some d

end Sys2Proof.Spec

section

open Sys2Proof Sys2Proof.Machine Sys2Proof.Spec

/-! ### Reset and power-on -/

/-- 70_reset_and_hazards.md section 1: what power-on leaves, for every configuration; State.reset is power-on of the
default configuration. `Halted` and cause `none` are the spec's decisions D16 and D15; that no step happens until the host's
`Run` is `step` answering the same state (log 4). -/
def Obligations.PowerOnLeavesEverythingZeroAndHalted : Prop :=
  State.reset = State.powerOn Config.default ∧
  ∀ c : Config,
    (State.powerOn c).a = 0x00 ∧ (State.powerOn c).x = 0x00 ∧ (State.powerOn c).y = 0x00 ∧ (State.powerOn c).p = 0x00 ∧
    (State.powerOn c).pc = 0x0000 ∧ (State.powerOn c).fsm = .halted ∧ (State.powerOn c).haltCause = .none ∧
    (State.powerOn c).config = c ∧ (∀ addr, (State.powerOn c).mem.read addr = 0x00) ∧
    Machine.step (State.powerOn c) = .next (State.powerOn c)

/-- The invariants hold at reset. In `Inv`, canonical memory is the model's form (log 13) and the well-formed table (30_encoding.md
section 3, here T0's) log 2; in `RegInv`, the reserved bits are 10_state.md section 3's (R13, R20), bit 0 being Carry
under `complete` by the spec's decision D12 (log 10). -/
def Obligations.ResetStateMeetsTheInvariants : Prop := Inv State.reset ∧ RegInv State.reset

/-- 70_reset_and_hazards.md section 2: the `Reset` operation, alone, on a `Halted` machine. That it does not write `Y`,
`fsm` and `halt_cause` is the spec's decisions D17 and D18. -/
def Obligations.HostResetClearsAXPAndLoadsPcFromVector : Prop :=
  ∀ s : State, s.fsm = .halted →
    hostStep .reset s = .next
      { s with a := 0x00, x := 0x00, p := 0x00, pc := s.mem.read 0xFFFD ++ s.mem.read 0xFFFC }

/-- 70_reset_and_hazards.md R212: a second `Reset` changes nothing. -/
def Obligations.HostResetIsIdempotent : Prop :=
  ∀ s t : State, hostStep .reset s = .next t → hostStep .reset t = .next t

/-! ### Memory -/

/-- 20_memory.md R32: a byte write changes its own cell and no other. -/
def Obligations.ByteWriteChangesExactlyItsCell : Prop :=
  ∀ (m : Memory) (addr b : Addr) (v : Byte), (m.write addr v).read b = if b = addr then v else m.read b

/-- 20_memory.md section 3: the 16-bit read and write, little-endian with the second address modulo 65536. -/
def Obligations.WordAccessIsTwoBytesLowFirst : Prop :=
  (∀ (m : Memory) (addr : Addr), m.read16 addr = m.read (addr + 1) ++ m.read addr) ∧
  ∀ (m : Memory) (addr v b : Addr),
    (m.write16 addr v).read b =
      if b = addr + 1 then v.extractLsb' 8 8 else if b = addr then v.extractLsb' 0 8 else m.read b

/-- The round trip quoted in 20_memory.md R38 and 95_test_vectors.md S1, at every address. -/
def Obligations.WordWrittenReadsBack : Prop :=
  ∀ (m : Memory) (addr v : Addr), (m.write16 addr v).read16 addr = v

/-- 20_memory.md section 3: the zero-page 16-bit read, and where it differs from `MemRead(zext_16(p), 2)`. -/
def Obligations.ZeroPageWordReadWrapsInsideThePage : Prop :=
  (∀ (m : Memory) (p : Byte), m.zpRead16 p = m.read ((p + 1).setWidth 16) ++ m.read (p.setWidth 16)) ∧
  ∀ p : Byte, (∃ m : Memory, m.wf = true ∧ m.zpRead16 p ≠ m.read16 (p.setWidth 16)) ↔ p = 0xFF

/-- Equal memories are equal data: canonical memories that read alike are the same list (20_memory.md R30; the list form is log 13). -/
def Obligations.CanonicalMemoriesThatReadAlikeAreEqual : Prop :=
  ∀ m m' : Memory, m.wf = true → m'.wf = true → (∀ addr, m.read addr = m'.read addr) → m = m'

/-- 20_memory.md R36: what every cell holds after the load of a program of at most 0x8000 bytes. -/
def Obligations.LoadPlacesTheProgramAndTheVector : Prop :=
  ∀ (m : Memory) (program : List Byte) (addr : Addr), program.length ≤ 0x8000 →
    (m.load program).read addr =
      if addr = 0xFFFC then 0x00
      else if addr = 0xFFFD then 0x80
      else if 0x8000 ≤ addr.toNat ∧ addr.toNat < 0x8000 + program.length then program.getD (addr.toNat - 0x8000) 0
      else m.read addr

/-- 20_memory.md section 7: an over-long program is rejected and nothing but the cause (and `Halted`) is written: the
spec's decision D19. -/
def Obligations.OverlongProgramIsRejectedUntouched : Prop :=
  ∀ (s : State) (program : List Byte), s.fsm = .halted → 0x8000 < program.length →
    hostStep (.run program) s = .next { s with fsm := .halted, haltCause := .loadRejected }

/-! ### Flags and the unit -/

/-- 41_flags.md R90 and R91: each helper's effect on every bit of `P`. -/
def Obligations.FlagHelpersWriteOneBitEach : Prop :=
  ∀ (v p : Byte) (k : Nat), k < 8 →
    (updateZero v p).getLsbD k = (if k = 1 then decide (v = 0x00) else p.getLsbD k) ∧
    (updateNegative v p).getLsbD k = (if k = 7 then v.getLsbD 7 else p.getLsbD k)

/-- 41_flags.md R93 (with R92's closed formula): after `SetZN(v)` Z and N are those of `v`, never both 1, every other bit
of `P` and all other state is as before. -/
def Obligations.ZeroAndNegativeAreIndependent : Prop :=
  ∀ (v : Byte) (s : State),
    s.setZN v = { s with p := Spec.setZN s.p v } ∧
    flagZ (s.setZN v).p = decide (v = 0x00) ∧ flagN (s.setZN v).p = v.getLsbD 7 ∧
    ¬(flagZ (s.setZN v).p = true ∧ flagN (s.setZN v).p = true) ∧
    ∀ k, k ≠ 1 → k ≠ 7 → (s.setZN v).p.getLsbD k = s.p.getLsbD k

/-- The Carry helper of 41_flags.md section 3. Bit 0 is the spec's decision D12 (log 10). -/
def Obligations.CarryHelperWritesBitZeroOnly : Prop :=
  ∀ (c : Bool) (p : Byte) (k : Nat), k < 8 →
    (updateCarry c p).getLsbD k = if k = 0 then c else p.getLsbD k

/-- The four functions of 42_logical_shift.md section 1. -/
def Obligations.UnitFunctionsComputeModulo256 : Prop :=
  ∀ u v : Byte,
    (∀ k, (and8 u v).getLsbD k = (u.getLsbD k && v.getLsbD k)) ∧ pass8 u = u ∧
    (inc8 u).toNat = (u.toNat + 1) % 256 ∧
    (shl1 u).1.toNat = u.toNat * 2 % 256 ∧ (shl1 u).2 = u.getLsbD 7

/-! ### Addressing -/

/-- 40_addressing.md R72, R73 and R75 to R78, with the other rows of its table but Indirect_Y's. -/
def Obligations.ResolverFollowsTheModeTable : Prop :=
  ∀ s : State,
    Machine.resolve .immediate s = some s.pc ∧
    Machine.resolve .zeroPage s = some ((s.mem.read s.pc).setWidth 16) ∧
    Machine.resolve .zeroPageX s = some ((s.mem.read s.pc + s.x).setWidth 16) ∧
    Machine.resolve .zeroPageY s = some ((s.mem.read s.pc + s.y).setWidth 16) ∧
    Machine.resolve .absolute s = some (s.mem.read (s.pc + 1) ++ s.mem.read s.pc) ∧
    Machine.resolve .absoluteX s = some ((s.mem.read (s.pc + 1) ++ s.mem.read s.pc) + s.x.setWidth 16) ∧
    Machine.resolve .absoluteY s = some ((s.mem.read (s.pc + 1) ++ s.mem.read s.pc) + s.y.setWidth 16) ∧
    Machine.resolve .indirectX s = some (pointer s.mem (s.mem.read s.pc + s.x)) ∧
    Machine.resolve .noneAddressing s = none

/-- 40_addressing.md section 2, Indirect_Y: the address under each value of the parameter `INDY_VARIANT`, which is the
spec's decision D13. -/
def Obligations.IndirectYFollowsItsVariant : Prop :=
  ∀ s : State,
    (s.config.indyVariant = .preIndexed →
      Machine.resolve .indirectY s = some (pointer s.mem (s.mem.read s.pc + s.y))) ∧
    (s.config.indyVariant = .postIndexed →
      Machine.resolve .indirectY s = some (pointer s.mem (s.mem.read s.pc) + s.y.setWidth 16))

/-- 40_addressing.md, "What the modes can reach": the zero-page modes never leave the zero page. -/
def Obligations.ZeroPageModesStayInTheZeroPage : Prop :=
  ∀ (s : State) (mode : Mode) (ea : Addr), mode ∈ [Mode.zeroPage, .zeroPageX, .zeroPageY] →
    Machine.resolve mode s = some ea → ea.toNat < 256

/-- 43_load_store.md R128, "With `Y = 0x00` the two variants agree", for every state. -/
def Obligations.IndirectYVariantsAgreeWhenYIsZero : Prop :=
  ∀ (s : State) (v w : IndyVariant), s.y = 0x00 →
    Machine.resolve .indirectY { s with config := { s.config with indyVariant := v } } =
      Machine.resolve .indirectY { s with config := { s.config with indyVariant := w } }

/-! ### Encoding -/

/-- Words written out from 30_encoding.md R55 and R51, one for each family, and the instructions they stand for. The
opcode values not attested are log 3. -/
def Obligations.SampleWordsDecodeAsTheTableSays : Prop :=
  decode [0x29, 0x0F] = .ok (.andImmediate 0x0F, []) ∧
  decode [0x3D, 0xFF, 0xFF, 0x00] = .ok (.andAbsoluteX 0xFFFF, [0x00]) ∧
  decode [0x0A] = .ok (.aslA, []) ∧
  decode [0xA9, 0xC0, 0xAA] = .ok (.ldaImmediate 0xC0, [0xAA]) ∧
  decode [0xB1, 0x20] = .ok (.ldaIndirectY 0x20, []) ∧
  decode [0x8D, 0x00, 0x02] = .ok (.staAbsolute 0x0200, []) ∧
  decode [0xAA] = .ok (.tax, []) ∧ decode [0xE8] = .ok (.inx, []) ∧ decode [0x00] = .ok (.brk, []) ∧
  decode [0xEA] = .error (.illegalOpcode 0xEA)

/-- Decode and encode agree under every well-formed table (30_encoding.md R50 to R56): an instruction the table has a row
for is encodable, and its bytes, whatever follows them, decode to it with every operand. The table's list form is log 2. -/
def Obligations.DecodeOfEncodeUnderEveryTable : Prop :=
  ∀ (t : OpTable) (i : Instr) (rest : List Byte), t.wf = true → i.wfIn t = true →
    ∃ bytes, encodeIn t i = some bytes ∧ bytes.length = i.length ∧ decodeIn t (bytes ++ rest) = .ok (i, rest)

/-- The other direction under T0 (its opcode values: log 3): the bytes that decode to an instruction are its encoding. -/
def Obligations.EncodeOfDecodeUnderT0 : Prop :=
  ∀ (bytes rest : List Byte) (i : Instr), decode bytes = .ok (i, rest) → encode i ++ rest = bytes

/-- Under T0 the table's encoder gives each instruction the opcode byte of its own row (30_encoding.md R55; log 3). -/
def Obligations.TableEncoderOfT0UsesTheRowsOpcodes : Prop :=
  ∀ i : Instr, i.wfIn t0 = true ∧ encodeIn t0 i = some (encode i)

/-- A well-formed table is a partial function (30_encoding.md R54): each of its descriptors is what its code looks up, and
a lookup answers only descriptors of the table with that code. The table's list form is log 2. -/
def Obligations.WellFormedTableIsAFunction : Prop :=
  ∀ t : OpTable, t.wf = true →
    (∀ d ∈ t, t.lookup d.code = some d) ∧ ∀ (b : Byte) (d : Descriptor), t.lookup b = some d → d ∈ t ∧ d.code = b

/-- 30_encoding.md R57: under T0 exactly the 229 listed bytes are illegal, and fetching one ends the run. The
22 unattested opcode values of T0 are log 3; the recorded cause is the spec's decision D15. -/
def Obligations.IllegalOpcodesOfT0EndTheRun : Prop :=
  (∀ b : Byte, t0.lookup b = none ↔ ∃ r ∈ illegalRanges, r.1 ≤ b.toNat ∧ b.toNat ≤ r.2) ∧
  ((List.range 256).filter (fun n => (t0.lookup (BitVec.ofNat 8 n)).isNone)).length = 229 ∧
  ∀ s : State, Ready s → s.config.opTable.lookup (s.mem.read s.pc) = none →
    Machine.step s = .next (ended .illegalOpcode s)

/-! ### The instructions: encoding, completion, result and frame -/

/-- 42_logical_shift.md section 2: each AND form's encoding, and the whole state it leaves. The opcode values are the spec's
own choice (log 3). -/
def Obligations.AndFormsSetFlagsAndKeepTheAccumulator : Prop :=
  ∀ (s : State) (op8 : Byte) (op16 : Addr),
    (encode (.andImmediate op8) = [0x29, op8] ∧ exec (.andImmediate op8) s = .next (afterAnd op8 2 s)) ∧
    (encode (.andZeroPage op8) = [0x25, op8] ∧
      exec (.andZeroPage op8) s = .next (afterAnd (s.mem.read (op8.setWidth 16)) 2 s)) ∧
    (encode (.andZeroPageX op8) = [0x35, op8] ∧
      exec (.andZeroPageX op8) s = .next (afterAnd (s.mem.read ((op8 + s.x).setWidth 16)) 2 s)) ∧
    (encode (.andAbsolute op16) = [0x2D, op16.extractLsb' 0 8, op16.extractLsb' 8 8] ∧
      exec (.andAbsolute op16) s = .next (afterAnd (s.mem.read op16) 3 s)) ∧
    (encode (.andAbsoluteX op16) = [0x3D, op16.extractLsb' 0 8, op16.extractLsb' 8 8] ∧
      exec (.andAbsoluteX op16) s = .next (afterAnd (s.mem.read (op16 + s.x.setWidth 16)) 3 s)) ∧
    (encode (.andAbsoluteY op16) = [0x39, op16.extractLsb' 0 8, op16.extractLsb' 8 8] ∧
      exec (.andAbsoluteY op16) s = .next (afterAnd (s.mem.read (op16 + s.y.setWidth 16)) 3 s)) ∧
    (encode (.andIndirectX op8) = [0x21, op8] ∧
      exec (.andIndirectX op8) s = .next (afterAnd (s.mem.read (pointer s.mem (op8 + s.x))) 2 s)) ∧
    (encode (.andIndirectY op8) = [0x31, op8] ∧
      (s.config.indyVariant = .preIndexed →
        exec (.andIndirectY op8) s = .next (afterAnd (s.mem.read (pointer s.mem (op8 + s.y))) 2 s)) ∧
      (s.config.indyVariant = .postIndexed →
        exec (.andIndirectY op8) s = .next (afterAnd (s.mem.read (pointer s.mem op8 + s.y.setWidth 16)) 2 s)))

/-- 42_logical_shift.md section 3: ASL A in both variants. The opcode value (log 3) and, in `complete`, Carry's bit and the
update of Z and N (D12, log 10) are the spec's own choice. -/
def Obligations.AslAdvancesInStubAndShiftsInComplete : Prop :=
  encode .aslA = [0x0A] ∧
  ∀ s : State,
    (s.config.aslVariant = .stub → exec .aslA s = .next { s with pc := s.pc + 1 }) ∧
    (s.config.aslVariant = .complete →
      ∃ t, exec .aslA s = .next t ∧
        t.a.toNat = s.a.toNat * 2 % 256 ∧
        flagC t.p = s.a.getLsbD 7 ∧ flagZ t.p = decide (t.a = 0x00) ∧ flagN t.p = t.a.getLsbD 7 ∧
        (∀ k, k ≠ 0 → k ≠ 1 → k ≠ 7 → t.p.getLsbD k = s.p.getLsbD k) ∧
        { t with a := s.a, p := s.p } = { s with pc := s.pc + 1 })

/-- 43_load_store.md section 1: each LDA form's encoding, and the whole state it leaves. The opcode values other than 0xA9
and 0xA5 are the spec's own choice (log 3). -/
def Obligations.LdaFormsLoadTheAccumulator : Prop :=
  ∀ (s : State) (op8 : Byte) (op16 : Addr),
    (encode (.ldaImmediate op8) = [0xA9, op8] ∧ exec (.ldaImmediate op8) s = .next (afterLda op8 2 s)) ∧
    (encode (.ldaZeroPage op8) = [0xA5, op8] ∧
      exec (.ldaZeroPage op8) s = .next (afterLda (s.mem.read (op8.setWidth 16)) 2 s)) ∧
    (encode (.ldaZeroPageX op8) = [0xB5, op8] ∧
      exec (.ldaZeroPageX op8) s = .next (afterLda (s.mem.read ((op8 + s.x).setWidth 16)) 2 s)) ∧
    (encode (.ldaAbsolute op16) = [0xAD, op16.extractLsb' 0 8, op16.extractLsb' 8 8] ∧
      exec (.ldaAbsolute op16) s = .next (afterLda (s.mem.read op16) 3 s)) ∧
    (encode (.ldaAbsoluteX op16) = [0xBD, op16.extractLsb' 0 8, op16.extractLsb' 8 8] ∧
      exec (.ldaAbsoluteX op16) s = .next (afterLda (s.mem.read (op16 + s.x.setWidth 16)) 3 s)) ∧
    (encode (.ldaAbsoluteY op16) = [0xB9, op16.extractLsb' 0 8, op16.extractLsb' 8 8] ∧
      exec (.ldaAbsoluteY op16) s = .next (afterLda (s.mem.read (op16 + s.y.setWidth 16)) 3 s)) ∧
    (encode (.ldaIndirectX op8) = [0xA1, op8] ∧
      exec (.ldaIndirectX op8) s = .next (afterLda (s.mem.read (pointer s.mem (op8 + s.x))) 2 s)) ∧
    (encode (.ldaIndirectY op8) = [0xB1, op8] ∧
      (s.config.indyVariant = .preIndexed →
        exec (.ldaIndirectY op8) s = .next (afterLda (s.mem.read (pointer s.mem (op8 + s.y))) 2 s)) ∧
      (s.config.indyVariant = .postIndexed →
        exec (.ldaIndirectY op8) s = .next (afterLda (s.mem.read (pointer s.mem op8 + s.y.setWidth 16)) 2 s)))

/-- 43_load_store.md R121 and R122: the step of the two LDA forms whose opcode values the document attests, under T0. -/
def Obligations.LdaImmediateAndZeroPageStep : Prop :=
  ∀ s : State, s.fsm = .running → s.config.opTable = t0 →
    (s.mem.read s.pc = 0xA9 → Machine.step s = .next (afterLda (s.mem.read (s.pc + 1)) 2 s)) ∧
    (s.mem.read s.pc = 0xA5 →
      Machine.step s = .next (afterLda (s.mem.read ((s.mem.read (s.pc + 1)).setWidth 16)) 2 s))

/-- 43_load_store.md section 2: each STA form's encoding, the address it stores to, and that it changes one byte and `pc`
only. The opcode values are the spec's own choice (log 3). -/
def Obligations.StaFormsStoreOneByte : Prop :=
  ∀ (s : State) (op8 : Byte) (op16 : Addr),
    (encode (.staZeroPage op8) = [0x85, op8] ∧
      ∃ t, exec (.staZeroPage op8) s = .next t ∧ StoredAt (op8.setWidth 16) 2 s t) ∧
    (encode (.staZeroPageX op8) = [0x95, op8] ∧
      ∃ t, exec (.staZeroPageX op8) s = .next t ∧ StoredAt ((op8 + s.x).setWidth 16) 2 s t) ∧
    (encode (.staAbsolute op16) = [0x8D, op16.extractLsb' 0 8, op16.extractLsb' 8 8] ∧
      ∃ t, exec (.staAbsolute op16) s = .next t ∧ StoredAt op16 3 s t) ∧
    (encode (.staAbsoluteX op16) = [0x9D, op16.extractLsb' 0 8, op16.extractLsb' 8 8] ∧
      ∃ t, exec (.staAbsoluteX op16) s = .next t ∧ StoredAt (op16 + s.x.setWidth 16) 3 s t) ∧
    (encode (.staAbsoluteY op16) = [0x99, op16.extractLsb' 0 8, op16.extractLsb' 8 8] ∧
      ∃ t, exec (.staAbsoluteY op16) s = .next t ∧ StoredAt (op16 + s.y.setWidth 16) 3 s t) ∧
    (encode (.staIndirectX op8) = [0x81, op8] ∧
      ∃ t, exec (.staIndirectX op8) s = .next t ∧ StoredAt (pointer s.mem (op8 + s.x)) 2 s t) ∧
    (encode (.staIndirectY op8) = [0x91, op8] ∧
      ∃ t, exec (.staIndirectY op8) s = .next t ∧
        (s.config.indyVariant = .preIndexed → StoredAt (pointer s.mem (op8 + s.y)) 2 s t) ∧
        (s.config.indyVariant = .postIndexed → StoredAt (pointer s.mem op8 + s.y.setWidth 16) 2 s t))

/-- 44_register_ops.md R150. -/
def Obligations.TaxCopiesAToX : Prop :=
  encode .tax = [0xAA] ∧
  ∀ s : State, exec .tax s = .next { s with x := s.a, p := Spec.setZN s.p s.a, pc := s.pc + 1 }

/-- 44_register_ops.md R151. -/
def Obligations.InxIncrementsXModulo256 : Prop :=
  encode .inx = [0xE8] ∧
  ∀ s : State, ∃ t, exec .inx s = .next t ∧
    t.x.toNat = (s.x.toNat + 1) % 256 ∧
    flagZ t.p = decide (t.x = 0x00) ∧ flagN t.p = t.x.getLsbD 7 ∧
    (∀ k, k ≠ 1 → k ≠ 7 → t.p.getLsbD k = s.p.getLsbD k) ∧
    { t with x := s.x, p := s.p } = { s with pc := s.pc + 1 }

/-- 45_control_fsm.md section 3, BRK. The recorded cause is the spec's decision D15. -/
def Obligations.BrkHaltsOnePastItsOpcode : Prop :=
  encode .brk = [0x00] ∧
  ∀ s : State, exec .brk s = .next { s with pc := s.pc + 1, fsm := .halted, haltCause := .brk }

/-! ### One step -/

/-- When the bytes at `pc` decode to an instruction, the step is that instruction's meaning at that state and nothing
else (45_control_fsm.md R161 to R164). That `exec` does the whole step is log 6. -/
def Obligations.StepRunsTheDecodedInstruction : Prop :=
  ∀ (s : State) (i : Instr) (rest : List Byte), Ready s →
    decodeIn s.config.opTable [s.mem.read s.pc, s.mem.read (s.pc + 1), s.mem.read (s.pc + 2)] = .ok (i, rest) →
    Machine.step s = exec i s

/-- 45_control_fsm.md R161: on every `Running` state, under every well-formed table and both variants of ASL and
Indirect_Y, the step is the pseudocode of `Step`, transcribed in Spec.step. What that pseudocode runs rests on the spec's
decisions D11 to D15: the two variants (D11, D13), the completed ASL (D12, log 10), the fatal addressing error (D14, log 9)
and the recorded causes (D15). -/
def Obligations.StepRefinesTheDispatchLoop : Prop :=
  ∀ s : State, Ready s → Machine.step s = .next (Spec.step s)

/-- 42_logical_shift.md R101: AND in any mode of any table, the unsupported mode included (fatal by the spec's
decision D14, log 9). -/
def Obligations.AndInAnyModeOfAnyTable : Prop :=
  ∀ (s : State) (d : Descriptor), Ready s → At d s → d.mnemonic = .and →
    (∀ ea, Machine.resolve d.mode s.fetched = some ea →
      Machine.step s = .next (afterAnd (s.mem.read ea) d.length s)) ∧
    (Machine.resolve d.mode s.fetched = none → Machine.step s = .next (ended .addrModeFault s))

/-- 43_load_store.md R120: LDA in any mode of any table, the unsupported mode included (fatal by the spec's decision D14,
log 9). -/
def Obligations.LdaInAnyModeOfAnyTable : Prop :=
  ∀ (s : State) (d : Descriptor), Ready s → At d s → d.mnemonic = .lda →
    (∀ ea, Machine.resolve d.mode s.fetched = some ea →
      Machine.step s = .next (afterLda (s.mem.read ea) d.length s)) ∧
    (Machine.resolve d.mode s.fetched = none → Machine.step s = .next (ended .addrModeFault s))

/-- 43_load_store.md R130: STA in any mode of any table, the unsupported mode included (fatal by the spec's decision D14,
log 9). -/
def Obligations.StaInAnyModeOfAnyTable : Prop :=
  ∀ (s : State) (d : Descriptor), Ready s → At d s → d.mnemonic = .sta →
    (∀ ea, Machine.resolve d.mode s.fetched = some ea →
      ∃ t, Machine.step s = .next t ∧ StoredAt ea d.length s t) ∧
    (Machine.resolve d.mode s.fetched = none → Machine.step s = .next (ended .addrModeFault s))

/-- 45_control_fsm.md section 3, unknown opcode. The recorded cause is the spec's decision D15. -/
def Obligations.UnknownOpcodeHaltsOnePastTheByte : Prop :=
  ∀ s : State, Ready s → s.config.opTable.lookup (s.mem.read s.pc) = none →
    Machine.step s = .next { s with pc := s.pc + 1, fsm := .halted, haltCause := .illegalOpcode }

/-- 45_control_fsm.md section 3, addressing-mode fault: where it happens and that T0 never shows it. The fatal reading is
the spec's decision D14 (log 9). -/
def Obligations.AddressingFaultHaltsAndNeverUnderT0 : Prop :=
  (∀ (s : State) (d : Descriptor), Ready s → At d s → d.mnemonic ∈ [Mnemonic.and, .lda, .sta] →
    Machine.resolve d.mode s.fetched = none →
    Machine.step s = .next { s with pc := s.pc + 1, fsm := .halted, haltCause := .addrModeFault }) ∧
  ∀ s t : State, s.fsm = .running → s.config.opTable = t0 → Machine.step s = .next t → t.fsm = .halted →
    t.haltCause ≠ .addrModeFault

/-- On a `Halted` machine `step` answers the same state: the model's reading (DEDUCED, log 4) of 45_control_fsm.md's
sentence that no step occurs then and no state changes by itself. -/
def Obligations.HaltedMachineStaysAsItIs : Prop :=
  ∀ s : State, s.fsm = .halted → Machine.step s = .next s

/-- 30_encoding.md section 3: a table that is not well formed is refused (log 2: the model's form of the spec's "a model
refuses"). A descriptor whose length is 0 or above 3 makes a table so. -/
def Obligations.IllFormedTableIsRefused : Prop :=
  (∀ s : State, s.fsm = .running → s.config.wf = false → Machine.step s = .refused .illFormedTable) ∧
  ∀ (t : OpTable) (d : Descriptor), d ∈ t → d.length = 0 ∨ 3 < d.length → t.wf = false

/-- 45_control_fsm.md R166: a step that stays `Running` moves `pc` by the descriptor's length, 1, 2 or 3, modulo 65536. -/
def Obligations.RunningStepMovesPcByTheLength : Prop :=
  ∀ s t : State, Ready s → Machine.step s = .next t → t.fsm = .running →
    ∃ d, At d s ∧ d.mnemonic ≠ .brk ∧ 1 ≤ d.length ∧ d.length ≤ 3 ∧ t.pc = s.pc + BitVec.ofNat 16 d.length

/-- 60_exceptions.md sections 1, 3 and 4: a step that ends the run records its cause, `pc` one past the opcode byte, and
changes nothing else; each cause has its own condition. The causes are the spec's decision D15, the fatal addressing error
D14 (log 9). -/
def Obligations.TerminalEventsArePreciseAndExclusive : Prop :=
  ∀ s t : State, Ready s → Machine.step s = .next t → t.fsm = .halted →
    t = ended t.haltCause s ∧
    ((t.haltCause = .illegalOpcode ∧ s.config.opTable.lookup (s.mem.read s.pc) = none) ∨
     (t.haltCause = .brk ∧ ∃ d, At d s ∧ d.mnemonic = .brk) ∨
     (t.haltCause = .addrModeFault ∧
       ∃ d, At d s ∧ d.mnemonic ∈ [Mnemonic.and, .lda, .sta] ∧ d.mode = .noneAddressing))

/-- 20_memory.md section 5: the only write of a step is STA's single byte. -/
def Obligations.OnlyStaWritesMemory : Prop :=
  ∀ s t : State, Ready s → Machine.step s = .next t →
    t.mem = s.mem ∨
    ∃ d ea, At d s ∧ d.mnemonic = .sta ∧ Machine.resolve d.mode s.fetched = some ea ∧
      ∀ b, t.mem.read b = if b = ea then s.a else s.mem.read b

/-- 10_state.md section 2, its table of which instruction writes what: the instructions by which a step may change each
register. `Y` and the configuration (log 1) are written by none. The reserved bits of `P` are its section 3's (R13, R20): under
`complete` bit 0 is Carry, which is the spec's decision D12 (log 10), so that bits 2 to 6 remain. -/
def Obligations.EachRegisterIsWrittenOnlyByItsInstructions : Prop :=
  ∀ s t : State, Machine.step s = .next t →
    t.y = s.y ∧ t.config = s.config ∧
    (t.a ≠ s.a → ∃ d, At d s ∧ (d.mnemonic = .lda ∨ d.mnemonic = .asl ∧ s.config.aslVariant = .complete)) ∧
    (t.x ≠ s.x → ∃ d, At d s ∧ d.mnemonic ∈ [Mnemonic.tax, .inx]) ∧
    (t.p ≠ s.p → ∃ d, At d s ∧
      (d.mnemonic ∈ [Mnemonic.and, .lda, .tax, .inx] ∨ d.mnemonic = .asl ∧ s.config.aslVariant = .complete)) ∧
    ∀ k, (reservedBits s.config.aslVariant).getLsbD k = true → t.p.getLsbD k = s.p.getLsbD k

/-- 41_flags.md R95: no instruction reads a flag. Two states that differ only in `P` step to states that differ only in
`P`; for the instructions that set Z and N alone, not in Z or N. -/
def Obligations.FlagsInfluenceNothing : Prop :=
  ∀ (s t : State) (q : Byte), Machine.step s = .next t →
    ∃ r, Machine.step { s with p := q } = .next { t with p := r } ∧
      (s.fsm = .running → ∀ d, At d s → d.mnemonic ∈ [Mnemonic.and, .lda, .tax, .inx] →
        (d.mode = .noneAddressing → d.mnemonic ∈ [Mnemonic.tax, .inx]) →
        flagZ r = flagZ t.p ∧ flagN r = flagN t.p)

/-- 20_memory.md section 9, fetch coherence (the spec's decision D23): the byte an STA stores just after itself is the next
opcode fetched. -/
def Obligations.StoredByteIsTheNextOpcodeFetched : Prop :=
  ∀ (s : State) (i : Instr) (rest : List Byte), Ready s →
    decodeIn s.config.opTable [s.mem.read s.pc, s.mem.read (s.pc + 1), s.mem.read (s.pc + 2)] = .ok (i, rest) →
    i = .staAbsolute (s.pc + 3) →
    ∃ t, Machine.step s = .next t ∧ t.pc = s.pc + 3 ∧ t.mem.read t.pc = s.a

/-- A word placed for the host's check runs as the instruction the decoder reads from it: the model's choice of how a
program comes to run (log 5). -/
def Obligations.PlacedWordIsTheInstructionRun : Prop :=
  ∀ (s : State) (nbits w : Nat) (i : Instr), s.config.opTable = t0 → decodeTableWord nbits w = some i →
    Machine.step (s.withFetchWord nbits w) = exec i (s.withFetchWord nbits w)

/-! ### Invariants -/

/-- Every step keeps the invariant, from every state that meets it. Canonical memory is the model's form (log 13), the
well-formed table log 2. -/
def Obligations.EveryStepKeepsTheInvariant : Prop :=
  ∀ s t : State, Inv s → Machine.step s = .next t → Inv t

/-- Every host operation keeps the invariant (the forms of logs 2 and 13). -/
def Obligations.EveryHostOperationKeepsTheInvariant : Prop :=
  ∀ (op : HostOp) (s t : State), Inv s → hostStep op s = .next t → Inv t

/-- Every step and every host operation keeps `Y = 0` (10_state.md section 2), the reserved bits of `P` at 0 (its section 3:
R13, R20; in `complete` bit 0 is Carry, the spec's decision D12, log 10), and Z and N not both 1 (41_flags.md section 1). `Reset`
clears `P` and leaves `Y` (70_reset_and_hazards.md section 2, D18). -/
def Obligations.RegisterInvariantIsKept : Prop :=
  ∀ s t : State, RegInv s →
    (Machine.step s = .next t ∨ ∃ op, hostStep op s = .next t) → RegInv t

/-- In every state that host operations and steps reach from power-on, both invariants hold and the configuration is the
one the machine was made with (10_state.md R12, R13, R16, R20, R24; 41_flags.md R93). Canonical memory is the model's form
(log 13), the well-formed table log 2, the configuration held in State log 1, Carry as bit 0 under `complete` the spec's
decision D12 (log 10). -/
def Obligations.ReachableStatesMeetTheInvariants : Prop :=
  ∀ (c : Config) (s : State), c.wf = true → Reachable c s → Inv s ∧ RegInv s ∧ s.config = c

/-- 10_state.md section 5, its derived invariant: `Halted` with cause `none` occurs only between power-on and the first
`Run`. The cause is the spec's decision D15, `Halted` at power-on D16. -/
def Obligations.HaltedWithoutCauseOnlyBeforeTheFirstRun : Prop :=
  ∀ (c : Config) (s : State), c.wf = true → ReachableAfterRun c s → s.fsm = .halted → s.haltCause ≠ .none

/-! ### Run -/

/-- 45_control_fsm.md section 4 and 70_reset_and_hazards.md section 2: what `Run` of a program of at most 0x8000 bytes
starts with, and that its loop is then `dispatchLoop` (its fuel is log 8). That `Reset` leaves `Y` is the spec's decision
D18, the cause D15. -/
def Obligations.RunLoadsResetsAndStartsAtTheProgram : Prop :=
  ∀ (s : State) (program : List Byte) (fuel : Nat), s.fsm = .halted → program.length ≤ 0x8000 →
    hostStep (.run program) s = .next
      { s with
        a := 0x00, x := 0x00, p := 0x00, pc := 0x8000, fsm := .running, haltCause := .none
        mem := s.mem.load program } ∧
    run fuel program s = dispatchLoop fuel
      { s with
        a := 0x00, x := 0x00, p := 0x00, pc := 0x8000, fsm := .running, haltCause := .none
        mem := s.mem.load program }

/-- A host operation on a `Running` machine is refused: the model's form (log 7) of 20_memory.md section 10 and
70_reset_and_hazards.md section 5 (D24). -/
def Obligations.HostIsRefusedWhileRunning : Prop :=
  ∀ s : State, s.fsm = .running →
    (∀ op, hostStep op s = .refused .hostWhileRunning) ∧
    (∀ addr, hostRead addr s = .error .hostWhileRunning) ∧ hostInspect s = .error .hostWhileRunning

/-- While `Halted` the host reads every cell and every piece of state, and its `write` changes one cell (20_memory.md
sections 2 and 10, 10_state.md section 10). -/
def Obligations.HostReadsAndWritesWhileHalted : Prop :=
  ∀ (s : State) (addr : Addr) (v : Byte), s.fsm = .halted →
    hostRead addr s = .ok (s.mem.read addr) ∧ hostInspect s = .ok s ∧
    ∃ t, hostStep (.write addr v) s = .next t ∧ { t with mem := s.mem } = s ∧
      ∀ b, t.mem.read b = if b = addr then v else s.mem.read b

/-- 45_control_fsm.md sections 3 and 4: once a run has halted, more fuel (log 8) gives the same state. -/
def Obligations.HaltedRunIsStableUnderMoreFuel : Prop :=
  ∀ (j k : Nat) (s t : State), dispatchLoop j s = .next t → t.fsm = .halted → j ≤ k → dispatchLoop k s = .next t

/-- 45_control_fsm.md section 4, its derived sentence on runs that store nothing, from any `Running` state: with a BRK byte
at 0x0000, 0x0001 and 0x0002 the sweep of `pc` halts, or meets an STA, before it has gone round. The steps are counted by
`dispatchLoop`'s fuel, which is the model's (log 8). -/
def Obligations.SweepHaltsOrMeetsAnSta : Prop :=
  ∀ s : State, Ready s →
    (∀ b ∈ [(0x0000 : Addr), 0x0001, 0x0002],
      ∃ d, s.config.opTable.lookup (s.mem.read b) = some d ∧ d.mnemonic = .brk) →
    ∃ k t, k ≤ 65537 - s.pc.toNat ∧ dispatchLoop k s = .next t ∧
      (t.fsm = .halted ∨ ∃ d, At d t ∧ d.mnemonic = .sta)

end
end

