-- ==== Sys2Proof/Laws/Decode.lean ====
section
/-! SUPPORT. The laws of the table lookup and of the row a descriptor stands for. -/

namespace Sys2Proof

/-- The descriptors of a table have lengths 1 to 3. -/
theorem OpTable.wfFrom_length :
    ∀ (t : OpTable) (lo : Nat), OpTable.wfFrom lo t = true → ∀ d ∈ t, 1 ≤ d.length ∧ d.length ≤ 3
  | [], _, _, d, hd => by simp at hd
  | e :: rest, lo, h, d, hd => by
    simp only [OpTable.wfFrom, Descriptor.wf, Bool.and_eq_true, decide_eq_true_eq] at h
    rcases List.mem_cons.1 hd with rfl | hd
    · exact h.1.2
    · exact OpTable.wfFrom_length rest _ h.2 d hd

/-- The codes of a table are at least the bound it rises from. -/
theorem OpTable.wfFrom_code_le :
    ∀ (t : OpTable) (lo : Nat), OpTable.wfFrom lo t = true → ∀ d ∈ t, lo ≤ d.code.toNat
  | [], _, _, d, hd => by simp at hd
  | e :: rest, lo, h, d, hd => by
    simp only [OpTable.wfFrom, Bool.and_eq_true, decide_eq_true_eq] at h
    rcases List.mem_cons.1 hd with rfl | hd
    · exact h.1.1
    · have := OpTable.wfFrom_code_le rest _ h.2 d hd
      omega

theorem OpTable.lookup_mem {t : OpTable} {b : Byte} {d : Descriptor} (h : t.lookup b = some d) : d ∈ t :=
  List.mem_of_find?_eq_some h

theorem OpTable.lookup_code {t : OpTable} {b : Byte} {d : Descriptor} (h : t.lookup b = some d) : d.code = b := by
  simpa using List.find?_some h

theorem OpTable.lookup_length {t : OpTable} {b : Byte} {d : Descriptor} (hw : t.wf = true)
    (h : t.lookup b = some d) : 1 ≤ d.length ∧ d.length ≤ 3 :=
  OpTable.wfFrom_length t 0 hw d (OpTable.lookup_mem h)

theorem Instr.length_bounds (i : Instr) : 1 ≤ i.length ∧ i.length ≤ 3 := by
  cases i <;> simp [Instr.length, Instr.mode, Mode.operandBytes]

theorem Instr.operands_length (i : Instr) : i.operands.length + 1 = i.length := by
  cases i <;> rfl

/-- What `rowInstr` answers: the instruction's row is the descriptor's. -/
theorem rowInstr_isRowOf {d : Descriptor} {b1 b2 : Byte} {i : Instr} (h : rowInstr d b1 b2 = some i) :
    d.isRowOf i = true := by
  obtain ⟨code, mn, len, cyc, md⟩ := d
  unfold rowInstr at h
  split at h
  · rename_i hl
    simp only at hl h
    subst hl
    cases mn <;> cases md <;> simp_all [andForm, ldaForm, staForm] <;> subst h <;> rfl
  · simp at h

/-- `decodeAt` by cases of the lookup. -/
theorem decodeAt_cases (t : OpTable) (b0 b1 b2 : Byte) :
    (t.lookup b0 = none ∧ decodeAt t b0 b1 b2 = .illegal) ∨
    (∃ d i, t.lookup b0 = some d ∧ rowInstr d b1 b2 = some i ∧ decodeAt t b0 b1 b2 = .row i) ∨
    (∃ d, t.lookup b0 = some d ∧ rowInstr d b1 b2 = none ∧ decodeAt t b0 b1 b2 = .offRow d) := by
  unfold decodeAt
  cases hl : t.lookup b0 with
  | none => simp
  | some d => cases hr : rowInstr d b1 b2 <;> simp [hr]

end Sys2Proof
end

