-- ==== Sys2Proof/Laws/Memory.lean ====
section
/-! SUPPORT. The laws of memory: a read after a write, and that every memory operation keeps the canonical form. -/

namespace Sys2Proof.Machine

/-! ### Reading after writing -/

theorem readAt_dropWhile (n k : Nat) (h : n < k) :
    ∀ m : Memory, Memory.readAt (m.dropWhile fun c => decide (c.1 ≤ n)) k = m.readAt k
  | [] => rfl
  | (j, b) :: rest => by
    by_cases hj : j ≤ n
    · simp [hj, readAt_dropWhile n k h rest, Memory.readAt, show ¬k < j by omega,
        show k ≠ j by omega]
    · simp [hj]

theorem readAt_dropWhile_of_le (n k : Nat) (h : k ≤ n) :
    ∀ m : Memory, Memory.readAt (m.dropWhile fun c => decide (c.1 ≤ n)) k = unlisted
  | [] => rfl
  | (j, b) :: rest => by
    by_cases hj : j ≤ n
    · simp [hj, readAt_dropWhile_of_le n k h rest]
    · simp [hj, Memory.readAt, show k < j by omega]

/-- A read after a write to the same numeric address gives the value written; any other address reads as before. -/
theorem readAt_writeAt (n k : Nat) (v : Byte) :
    ∀ m : Memory, (m.writeAt n v).readAt k = if k = n then v else m.readAt k
  | [] => by
    by_cases hv : v = unlisted <;> by_cases hk : k = n <;>
      simp [Memory.writeAt, Memory.readAt, hv, hk]
  | (j, b) :: rest => by
    rcases Nat.lt_trichotomy n j with hn | rfl | hn
    · by_cases hv : v = unlisted
      · by_cases hk : k = n
        · subst hk; simp [Memory.writeAt, hn, hv, Memory.readAt]
        · simp [Memory.writeAt, hn, hv, hk]
      · simp only [Memory.writeAt, hn, hv, if_true, if_false]
        rcases Nat.lt_trichotomy k n with hk | rfl | hk
        · simp [Memory.readAt, hk, show k ≠ n by omega, show k < j by omega]
        · simp [Memory.readAt]
        · simp [Memory.readAt, show ¬k < n by omega, show k ≠ n by omega]
    · by_cases hv : v = unlisted
      · simp only [Memory.writeAt, hv, Nat.lt_irrefl, if_true, if_false]
        rcases Nat.lt_trichotomy k n with hk | rfl | hk
        · simp [Memory.readAt, hk, show k ≠ n by omega, readAt_dropWhile_of_le n k hk.le rest]
        · simp [readAt_dropWhile_of_le k k le_rfl rest]
        · simp [Memory.readAt, show ¬k < n by omega, show k ≠ n by omega, readAt_dropWhile n k hk rest]
      · simp only [Memory.writeAt, hv, Nat.lt_irrefl, if_true, if_false]
        by_cases hk : k = n
        · simp [Memory.readAt, hk]
        · simp [Memory.readAt, hk]
    · simp only [Memory.writeAt, show ¬n < j by omega, show n ≠ j by omega, if_false]
      rcases Nat.lt_trichotomy k j with hk | rfl | hk
      · simp [Memory.readAt, hk, show k ≠ n by omega]
      · simp [Memory.readAt, show k ≠ n by omega]
      · simp [Memory.readAt, show ¬k < j by omega, show k ≠ j by omega, readAt_writeAt n k v rest]

theorem read_write (m : Memory) (addr b : Addr) (v : Byte) :
    (m.write addr v).read b = if b = addr then v else m.read b := by
  simp only [Memory.read, Memory.write, readAt_writeAt, BitVec.toNat_inj]

@[simp] theorem read_write_same (m : Memory) (addr : Addr) (v : Byte) : (m.write addr v).read addr = v := by
  simp [read_write]

theorem read_write_other (m : Memory) {addr b : Addr} (v : Byte) (h : b ≠ addr) :
    (m.write addr v).read b = m.read b := by
  simp [read_write, h]

/-! ### The canonical form -/

theorem Memory.wfFrom_mono {lo lo' : Nat} (h : lo' ≤ lo) :
    ∀ m : Memory, Memory.wfFrom lo m = true → Memory.wfFrom lo' m = true
  | [], _ => rfl
  | (k, b) :: rest, hm => by
    simp only [Memory.wfFrom, Bool.and_eq_true, decide_eq_true_eq] at hm ⊢
    exact ⟨⟨⟨h.trans hm.1.1.1, hm.1.1.2⟩, hm.1.2⟩, hm.2⟩

/-- On a canonical rest, the removal of an entry drops nothing more. -/
theorem dropWhile_canonical (n : Nat) :
    ∀ m : Memory, Memory.wfFrom (n + 1) m = true → (m.dropWhile fun c => decide (c.1 ≤ n)) = m
  | [], _ => rfl
  | (k, b) :: rest, hm => by
    simp only [Memory.wfFrom, Bool.and_eq_true, decide_eq_true_eq] at hm
    simp [show ¬k ≤ n by omega]

theorem Memory.wfFrom_writeAt (n : Nat) (v : Byte) (hn : n < 65536) :
    ∀ (m : Memory) (lo : Nat), lo ≤ n → Memory.wfFrom lo m = true → Memory.wfFrom lo (m.writeAt n v) = true
  | [], lo, hlo, _ => by
    by_cases hv : v = unlisted
    · simp [Memory.writeAt, hv, Memory.wfFrom]
    · have hv' : ¬v = 0#8 := hv
      simp [Memory.writeAt, hv, Memory.wfFrom, hlo, hn, hv']
  | (k, b) :: rest, lo, hlo, hm => by
    have hw := hm
    simp only [Memory.wfFrom, Bool.and_eq_true, decide_eq_true_eq] at hw
    obtain ⟨⟨⟨h1, h2⟩, h3⟩, h4⟩ := hw
    replace h3 : ¬b = 0#8 := h3
    rcases Nat.lt_trichotomy n k with hk | rfl | hk
    · by_cases hv : v = unlisted
      · simpa [Memory.writeAt, hk, hv] using hm
      · have hv' : ¬v = 0#8 := hv
        simp [Memory.writeAt, hk, hv, Memory.wfFrom, hlo, hn, hv', h2, h3, h4, Nat.succ_le_of_lt hk]
    · by_cases hv : v = unlisted
      · simp only [Memory.writeAt, hv, Nat.lt_irrefl, if_true, if_false, dropWhile_canonical n rest h4]
        exact Memory.wfFrom_mono (by omega) rest h4
      · have hv' : ¬v = 0#8 := hv
        simp [Memory.writeAt, hv, Memory.wfFrom, hlo, hn, hv', h4]
    · have := Memory.wfFrom_writeAt n v hn rest (k + 1) hk h4
      simp [Memory.writeAt, show ¬n < k by omega, show n ≠ k by omega, Memory.wfFrom, h1, h2, h3, this]

theorem Memory.wf_write (m : Memory) (addr : Addr) (v : Byte) (h : m.wf = true) : (m.write addr v).wf = true :=
  Memory.wfFrom_writeAt addr.toNat v addr.isLt m 0 (Nat.zero_le _) h

theorem Memory.wf_write16 (m : Memory) (addr v : Addr) (h : m.wf = true) : (m.write16 addr v).wf = true :=
  Memory.wf_write _ _ _ (Memory.wf_write _ _ _ h)

theorem Memory.wf_writeBytes :
    ∀ (program : List Byte) (m : Memory) (addr : Addr), m.wf = true → (m.writeBytes addr program).wf = true
  | [], _, _, h => h
  | b :: rest, m, addr, h => Memory.wf_writeBytes rest _ _ (Memory.wf_write m addr b h)

theorem Memory.wf_load (m : Memory) (program : List Byte) (h : m.wf = true) : (m.load program).wf = true :=
  Memory.wf_write16 _ _ _ (Memory.wf_writeBytes program m loadBase h)

theorem Memory.wf_placeWord (m : Memory) (addr : Addr) (w : Nat) (h : m.wf = true) : (m.placeWord addr w).wf = true :=
  Memory.wf_write _ _ _ (Memory.wf_write _ _ _ (Memory.wf_write _ _ _ h))

theorem reset_memory_wf : State.reset.mem.wf = true := rfl

end Sys2Proof.Machine
end

