-- ==== Sys2Proof/Laws/PerInstr.lean ====
section
/-! SUPPORT. Statements made per instruction: T0 has the instruction's row, and its encoding has the row's length. -/

namespace Sys2Proof.Laws.HasRow

/-- T0 has a row for the instruction and its encoding has that row's length (30_encoding.md R55, R62). -/
def Statement (i : Instr) : Prop := i.wfIn t0 = true ∧ (encode i).length = i.length

theorem brk : Statement .brk := ⟨rfl, rfl⟩
theorem aslA : Statement .aslA := ⟨rfl, rfl⟩
theorem andImmediate (op8 : Byte) : Statement (.andImmediate op8) := ⟨rfl, rfl⟩
theorem andZeroPage (op8 : Byte) : Statement (.andZeroPage op8) := ⟨rfl, rfl⟩
theorem andZeroPageX (op8 : Byte) : Statement (.andZeroPageX op8) := ⟨rfl, rfl⟩
theorem andAbsolute (op16 : Addr) : Statement (.andAbsolute op16) := ⟨rfl, rfl⟩
theorem andAbsoluteX (op16 : Addr) : Statement (.andAbsoluteX op16) := ⟨rfl, rfl⟩
theorem andAbsoluteY (op16 : Addr) : Statement (.andAbsoluteY op16) := ⟨rfl, rfl⟩
theorem andIndirectX (op8 : Byte) : Statement (.andIndirectX op8) := ⟨rfl, rfl⟩
theorem andIndirectY (op8 : Byte) : Statement (.andIndirectY op8) := ⟨rfl, rfl⟩
theorem ldaImmediate (op8 : Byte) : Statement (.ldaImmediate op8) := ⟨rfl, rfl⟩
theorem ldaZeroPage (op8 : Byte) : Statement (.ldaZeroPage op8) := ⟨rfl, rfl⟩
theorem ldaZeroPageX (op8 : Byte) : Statement (.ldaZeroPageX op8) := ⟨rfl, rfl⟩
theorem ldaAbsolute (op16 : Addr) : Statement (.ldaAbsolute op16) := ⟨rfl, rfl⟩
theorem ldaAbsoluteX (op16 : Addr) : Statement (.ldaAbsoluteX op16) := ⟨rfl, rfl⟩
theorem ldaAbsoluteY (op16 : Addr) : Statement (.ldaAbsoluteY op16) := ⟨rfl, rfl⟩
theorem ldaIndirectX (op8 : Byte) : Statement (.ldaIndirectX op8) := ⟨rfl, rfl⟩
theorem ldaIndirectY (op8 : Byte) : Statement (.ldaIndirectY op8) := ⟨rfl, rfl⟩
theorem staZeroPage (op8 : Byte) : Statement (.staZeroPage op8) := ⟨rfl, rfl⟩
theorem staZeroPageX (op8 : Byte) : Statement (.staZeroPageX op8) := ⟨rfl, rfl⟩
theorem staAbsolute (op16 : Addr) : Statement (.staAbsolute op16) := ⟨rfl, rfl⟩
theorem staAbsoluteX (op16 : Addr) : Statement (.staAbsoluteX op16) := ⟨rfl, rfl⟩
theorem staAbsoluteY (op16 : Addr) : Statement (.staAbsoluteY op16) := ⟨rfl, rfl⟩
theorem staIndirectX (op8 : Byte) : Statement (.staIndirectX op8) := ⟨rfl, rfl⟩
theorem staIndirectY (op8 : Byte) : Statement (.staIndirectY op8) := ⟨rfl, rfl⟩
theorem tax : Statement .tax := ⟨rfl, rfl⟩
theorem inx : Statement .inx := ⟨rfl, rfl⟩

end Sys2Proof.Laws.HasRow
end

