-- ==== Sys2Proof/Laws/State.lean ====
section
/-! SUPPORT. One lemma per field per update of State: what each named operation leaves in each field. -/

namespace Sys2Proof.Machine

/-! ### `fetched` -/

@[simp] theorem fetched_a (s : State) : s.fetched.a = s.a := rfl
@[simp] theorem fetched_x (s : State) : s.fetched.x = s.x := rfl
@[simp] theorem fetched_y (s : State) : s.fetched.y = s.y := rfl
@[simp] theorem fetched_p (s : State) : s.fetched.p = s.p := rfl
@[simp] theorem fetched_pc (s : State) : s.fetched.pc = s.pc + 1 := rfl
@[simp] theorem fetched_fsm (s : State) : s.fetched.fsm = s.fsm := rfl
@[simp] theorem fetched_haltCause (s : State) : s.fetched.haltCause = s.haltCause := rfl
@[simp] theorem fetched_mem (s : State) : s.fetched.mem = s.mem := rfl
@[simp] theorem fetched_config (s : State) : s.fetched.config = s.config := rfl

/-! ### `advance` -/

@[simp] theorem advance_a (n : Nat) (s : State) : (s.advance n).a = s.a := rfl
@[simp] theorem advance_x (n : Nat) (s : State) : (s.advance n).x = s.x := rfl
@[simp] theorem advance_y (n : Nat) (s : State) : (s.advance n).y = s.y := rfl
@[simp] theorem advance_p (n : Nat) (s : State) : (s.advance n).p = s.p := rfl
@[simp] theorem advance_pc (n : Nat) (s : State) : (s.advance n).pc = s.pc + BitVec.ofNat 16 (n - 1) := rfl
@[simp] theorem advance_fsm (n : Nat) (s : State) : (s.advance n).fsm = s.fsm := rfl
@[simp] theorem advance_haltCause (n : Nat) (s : State) : (s.advance n).haltCause = s.haltCause := rfl
@[simp] theorem advance_mem (n : Nat) (s : State) : (s.advance n).mem = s.mem := rfl
@[simp] theorem advance_config (n : Nat) (s : State) : (s.advance n).config = s.config := rfl

/-! ### `raise` -/

@[simp] theorem raise_a (c : HaltCause) (s : State) : (s.raise c).a = s.a := rfl
@[simp] theorem raise_x (c : HaltCause) (s : State) : (s.raise c).x = s.x := rfl
@[simp] theorem raise_y (c : HaltCause) (s : State) : (s.raise c).y = s.y := rfl
@[simp] theorem raise_p (c : HaltCause) (s : State) : (s.raise c).p = s.p := rfl
@[simp] theorem raise_pc (c : HaltCause) (s : State) : (s.raise c).pc = s.pc := rfl
@[simp] theorem raise_fsm (c : HaltCause) (s : State) : (s.raise c).fsm = .halted := rfl
@[simp] theorem raise_haltCause (c : HaltCause) (s : State) : (s.raise c).haltCause = c := rfl
@[simp] theorem raise_mem (c : HaltCause) (s : State) : (s.raise c).mem = s.mem := rfl
@[simp] theorem raise_config (c : HaltCause) (s : State) : (s.raise c).config = s.config := rfl

/-! ### `setZN` -/

@[simp] theorem setZN_a (v : Byte) (s : State) : (s.setZN v).a = s.a := rfl
@[simp] theorem setZN_x (v : Byte) (s : State) : (s.setZN v).x = s.x := rfl
@[simp] theorem setZN_y (v : Byte) (s : State) : (s.setZN v).y = s.y := rfl
@[simp] theorem setZN_p (v : Byte) (s : State) : (s.setZN v).p = updateNegative v (updateZero v s.p) := rfl
@[simp] theorem setZN_pc (v : Byte) (s : State) : (s.setZN v).pc = s.pc := rfl
@[simp] theorem setZN_fsm (v : Byte) (s : State) : (s.setZN v).fsm = s.fsm := rfl
@[simp] theorem setZN_haltCause (v : Byte) (s : State) : (s.setZN v).haltCause = s.haltCause := rfl
@[simp] theorem setZN_mem (v : Byte) (s : State) : (s.setZN v).mem = s.mem := rfl
@[simp] theorem setZN_config (v : Byte) (s : State) : (s.setZN v).config = s.config := rfl

/-! ### `andWith` -/

@[simp] theorem andWith_a (m : Byte) (s : State) : (andWith m s).a = s.a := rfl
@[simp] theorem andWith_x (m : Byte) (s : State) : (andWith m s).x = s.x := rfl
@[simp] theorem andWith_y (m : Byte) (s : State) : (andWith m s).y = s.y := rfl
@[simp] theorem andWith_p (m : Byte) (s : State) : (andWith m s).p = updateNegative (m &&& s.a) (updateZero (m &&& s.a) s.p) := rfl
@[simp] theorem andWith_pc (m : Byte) (s : State) : (andWith m s).pc = s.pc := rfl
@[simp] theorem andWith_fsm (m : Byte) (s : State) : (andWith m s).fsm = s.fsm := rfl
@[simp] theorem andWith_haltCause (m : Byte) (s : State) : (andWith m s).haltCause = s.haltCause := rfl
@[simp] theorem andWith_mem (m : Byte) (s : State) : (andWith m s).mem = s.mem := rfl
@[simp] theorem andWith_config (m : Byte) (s : State) : (andWith m s).config = s.config := rfl

/-! ### `andAt` -/

@[simp] theorem andAt_a (ea : Addr) (s : State) : (andAt ea s).a = s.a := rfl
@[simp] theorem andAt_x (ea : Addr) (s : State) : (andAt ea s).x = s.x := rfl
@[simp] theorem andAt_y (ea : Addr) (s : State) : (andAt ea s).y = s.y := rfl
@[simp] theorem andAt_p (ea : Addr) (s : State) : (andAt ea s).p = updateNegative (s.mem.read ea &&& s.a) (updateZero (s.mem.read ea &&& s.a) s.p) := rfl
@[simp] theorem andAt_pc (ea : Addr) (s : State) : (andAt ea s).pc = s.pc := rfl
@[simp] theorem andAt_fsm (ea : Addr) (s : State) : (andAt ea s).fsm = s.fsm := rfl
@[simp] theorem andAt_haltCause (ea : Addr) (s : State) : (andAt ea s).haltCause = s.haltCause := rfl
@[simp] theorem andAt_mem (ea : Addr) (s : State) : (andAt ea s).mem = s.mem := rfl
@[simp] theorem andAt_config (ea : Addr) (s : State) : (andAt ea s).config = s.config := rfl

/-! ### `loadA` -/

@[simp] theorem loadA_a (m : Byte) (s : State) : (loadA m s).a = m := rfl
@[simp] theorem loadA_x (m : Byte) (s : State) : (loadA m s).x = s.x := rfl
@[simp] theorem loadA_y (m : Byte) (s : State) : (loadA m s).y = s.y := rfl
@[simp] theorem loadA_p (m : Byte) (s : State) : (loadA m s).p = updateNegative m (updateZero m s.p) := rfl
@[simp] theorem loadA_pc (m : Byte) (s : State) : (loadA m s).pc = s.pc := rfl
@[simp] theorem loadA_fsm (m : Byte) (s : State) : (loadA m s).fsm = s.fsm := rfl
@[simp] theorem loadA_haltCause (m : Byte) (s : State) : (loadA m s).haltCause = s.haltCause := rfl
@[simp] theorem loadA_mem (m : Byte) (s : State) : (loadA m s).mem = s.mem := rfl
@[simp] theorem loadA_config (m : Byte) (s : State) : (loadA m s).config = s.config := rfl

/-! ### `loadAt` -/

@[simp] theorem loadAt_a (ea : Addr) (s : State) : (loadAt ea s).a = s.mem.read ea := rfl
@[simp] theorem loadAt_x (ea : Addr) (s : State) : (loadAt ea s).x = s.x := rfl
@[simp] theorem loadAt_y (ea : Addr) (s : State) : (loadAt ea s).y = s.y := rfl
@[simp] theorem loadAt_p (ea : Addr) (s : State) : (loadAt ea s).p = updateNegative (s.mem.read ea) (updateZero (s.mem.read ea) s.p) := rfl
@[simp] theorem loadAt_pc (ea : Addr) (s : State) : (loadAt ea s).pc = s.pc := rfl
@[simp] theorem loadAt_fsm (ea : Addr) (s : State) : (loadAt ea s).fsm = s.fsm := rfl
@[simp] theorem loadAt_haltCause (ea : Addr) (s : State) : (loadAt ea s).haltCause = s.haltCause := rfl
@[simp] theorem loadAt_mem (ea : Addr) (s : State) : (loadAt ea s).mem = s.mem := rfl
@[simp] theorem loadAt_config (ea : Addr) (s : State) : (loadAt ea s).config = s.config := rfl

/-! ### `storeAt` -/

@[simp] theorem storeAt_a (ea : Addr) (s : State) : (storeAt ea s).a = s.a := rfl
@[simp] theorem storeAt_x (ea : Addr) (s : State) : (storeAt ea s).x = s.x := rfl
@[simp] theorem storeAt_y (ea : Addr) (s : State) : (storeAt ea s).y = s.y := rfl
@[simp] theorem storeAt_p (ea : Addr) (s : State) : (storeAt ea s).p = s.p := rfl
@[simp] theorem storeAt_pc (ea : Addr) (s : State) : (storeAt ea s).pc = s.pc := rfl
@[simp] theorem storeAt_fsm (ea : Addr) (s : State) : (storeAt ea s).fsm = s.fsm := rfl
@[simp] theorem storeAt_haltCause (ea : Addr) (s : State) : (storeAt ea s).haltCause = s.haltCause := rfl
@[simp] theorem storeAt_mem (ea : Addr) (s : State) : (storeAt ea s).mem = s.mem.write ea s.a := rfl
@[simp] theorem storeAt_config (ea : Addr) (s : State) : (storeAt ea s).config = s.config := rfl

/-! ### `transferAX` -/

@[simp] theorem transferAX_a (s : State) : (transferAX s).a = s.a := rfl
@[simp] theorem transferAX_x (s : State) : (transferAX s).x = s.a := rfl
@[simp] theorem transferAX_y (s : State) : (transferAX s).y = s.y := rfl
@[simp] theorem transferAX_p (s : State) : (transferAX s).p = updateNegative s.a (updateZero s.a s.p) := rfl
@[simp] theorem transferAX_pc (s : State) : (transferAX s).pc = s.pc := rfl
@[simp] theorem transferAX_fsm (s : State) : (transferAX s).fsm = s.fsm := rfl
@[simp] theorem transferAX_haltCause (s : State) : (transferAX s).haltCause = s.haltCause := rfl
@[simp] theorem transferAX_mem (s : State) : (transferAX s).mem = s.mem := rfl
@[simp] theorem transferAX_config (s : State) : (transferAX s).config = s.config := rfl

/-! ### `incrementX` -/

@[simp] theorem incrementX_a (s : State) : (incrementX s).a = s.a := rfl
@[simp] theorem incrementX_x (s : State) : (incrementX s).x = s.x + 1 := rfl
@[simp] theorem incrementX_y (s : State) : (incrementX s).y = s.y := rfl
@[simp] theorem incrementX_p (s : State) : (incrementX s).p = updateNegative (s.x + 1) (updateZero (s.x + 1) s.p) := rfl
@[simp] theorem incrementX_pc (s : State) : (incrementX s).pc = s.pc := rfl
@[simp] theorem incrementX_fsm (s : State) : (incrementX s).fsm = s.fsm := rfl
@[simp] theorem incrementX_haltCause (s : State) : (incrementX s).haltCause = s.haltCause := rfl
@[simp] theorem incrementX_mem (s : State) : (incrementX s).mem = s.mem := rfl
@[simp] theorem incrementX_config (s : State) : (incrementX s).config = s.config := rfl

/-! ### `applyReset` -/

@[simp] theorem applyReset_a (s : State) : s.applyReset.a = 0 := rfl
@[simp] theorem applyReset_x (s : State) : s.applyReset.x = 0 := rfl
@[simp] theorem applyReset_y (s : State) : s.applyReset.y = s.y := rfl
@[simp] theorem applyReset_p (s : State) : s.applyReset.p = 0 := rfl
@[simp] theorem applyReset_pc (s : State) : s.applyReset.pc = s.mem.read16 resetVector := rfl
@[simp] theorem applyReset_fsm (s : State) : s.applyReset.fsm = s.fsm := rfl
@[simp] theorem applyReset_haltCause (s : State) : s.applyReset.haltCause = s.haltCause := rfl
@[simp] theorem applyReset_mem (s : State) : s.applyReset.mem = s.mem := rfl
@[simp] theorem applyReset_config (s : State) : s.applyReset.config = s.config := rfl

/-! ### `shiftA`, which branches on the variant -/

theorem shiftA_stub (s : State) (h : s.config.aslVariant = .stub) : shiftA s = s := by
  simp [shiftA, h]

theorem shiftA_complete (s : State) (h : s.config.aslVariant = .complete) :
    shiftA s = State.setZN (s.a <<< 1) { s with a := s.a <<< 1, p := updateCarry (s.a.getLsbD 7) s.p } := by
  simp [shiftA, h, shl1]

@[simp] theorem shiftA_x (s : State) : (shiftA s).x = s.x := by
  unfold shiftA; split <;> rfl

@[simp] theorem shiftA_y (s : State) : (shiftA s).y = s.y := by
  unfold shiftA; split <;> rfl

@[simp] theorem shiftA_pc (s : State) : (shiftA s).pc = s.pc := by
  unfold shiftA; split <;> rfl

@[simp] theorem shiftA_fsm (s : State) : (shiftA s).fsm = s.fsm := by
  unfold shiftA; split <;> rfl

@[simp] theorem shiftA_haltCause (s : State) : (shiftA s).haltCause = s.haltCause := by
  unfold shiftA; split <;> rfl

@[simp] theorem shiftA_mem (s : State) : (shiftA s).mem = s.mem := by
  unfold shiftA; split <;> rfl

@[simp] theorem shiftA_config (s : State) : (shiftA s).config = s.config := by
  unfold shiftA; split <;> rfl

end Sys2Proof.Machine
end

