-- ==== Sys2Proof/Laws/Step.lean ====
section
/-! SUPPORT. What a step, a dispatch by descriptor and a host operation can do, said once. -/

namespace Sys2Proof.Machine

/-- What the resolver's answer may be: an error for NoneAddressing alone (40_addressing.md R81). -/
theorem resolve_eq_none_iff (mode : Mode) (s : State) : resolve mode s = none ↔ mode = .noneAddressing := by
  cases mode <;> simp [resolve]

theorem completes_eq (n : Nat) (h : State → State) (s : State) : completes n h s = .next ((h s.fetched).advance n) :=
  rfl

/-- Every meaning answers a next state: no instruction faults or is refused. -/
theorem exec_next (i : Instr) (s : State) : ∃ t, exec i s = .next t := by
  cases i <;> exact ⟨_, rfl⟩

/-- Everything a handler can do. -/
theorem handler_cases {mn : Mnemonic} {md : Mode} {s t : State} (h : handler mn md s = some t) :
    (∃ ea, mn = .and ∧ resolve md s = some ea ∧ t = andAt ea s) ∨ (mn = .asl ∧ t = shiftA s) ∨
    (∃ ea, mn = .lda ∧ resolve md s = some ea ∧ t = loadAt ea s) ∨
    (∃ ea, mn = .sta ∧ resolve md s = some ea ∧ t = storeAt ea s) ∨
    (mn = .tax ∧ t = transferAX s) ∨ (mn = .inx ∧ t = incrementX s) ∨ (mn = .brk ∧ t = s) := by
  cases mn <;> simp_all [handler, eq_comm]

theorem handler_eq_none {mn : Mnemonic} {md : Mode} {s : State} (h : handler mn md s = none) :
    mn ∈ [Mnemonic.and, .lda, .sta] ∧ md = .noneAddressing := by
  cases mn <;> simp_all [handler, resolve_eq_none_iff]

/-- Everything a dispatch by descriptor can do. -/
theorem runDescriptor_cases (d : Descriptor) (s : State) :
    (d.mnemonic ∈ [Mnemonic.and, .lda, .sta] ∧ d.mode = .noneAddressing ∧
      runDescriptor d s = s.fetched.raise .addrModeFault) ∨
    (d.mnemonic = .brk ∧ runDescriptor d s = s.fetched.raise .brk) ∨
    (d.mnemonic ≠ .brk ∧ ∃ t, handler d.mnemonic d.mode s.fetched = some t ∧ runDescriptor d s = t.advance d.length) := by
  unfold runDescriptor
  cases h : handler d.mnemonic d.mode s.fetched with
  | none => exact .inl ⟨(handler_eq_none h).1, (handler_eq_none h).2, rfl⟩
  | some t =>
    by_cases hb : d.mnemonic = .brk
    · have : t = s.fetched := by simpa [hb, handler, eq_comm] using h
      exact .inr (.inl ⟨hb, by simp [hb, this]⟩)
    · exact .inr (.inr ⟨hb, t, rfl, by simp [hb]⟩)

/-- Everything a step can do. -/
theorem step_cases {s t : State} (h : step s = .next t) :
    (s.fsm = .halted ∧ t = s) ∨
    (s.fsm = .running ∧ s.config.wf = true ∧
      ((s.config.opTable.lookup (s.mem.read s.pc) = none ∧ t = s.fetched.raise .illegalOpcode) ∨
       (∃ d i, s.config.opTable.lookup (s.mem.read s.pc) = some d ∧
          rowInstr d (s.mem.read (s.pc + 1)) (s.mem.read (s.pc + 2)) = some i ∧ exec i s = .next t) ∨
       (∃ d, s.config.opTable.lookup (s.mem.read s.pc) = some d ∧
          rowInstr d (s.mem.read (s.pc + 1)) (s.mem.read (s.pc + 2)) = none ∧ t = runDescriptor d s))) := by
  unfold step at h
  cases hf : s.fsm with
  | halted => simp_all
  | running =>
    simp only [hf] at h
    by_cases hw : s.config.wf = true
    · simp only [hw, if_true] at h
      rcases decodeAt_cases s.config.opTable (s.mem.read s.pc) (s.mem.read (s.pc + 1)) (s.mem.read (s.pc + 2)) with
        ⟨hl, he⟩ | ⟨d, i, hl, hr, he⟩ | ⟨d, hl, hr, he⟩
      · simp only [State.fetchDecode, he] at h
        exact .inr ⟨rfl, hw, .inl ⟨hl, by simpa [eq_comm] using h⟩⟩
      · simp only [State.fetchDecode, he] at h
        exact .inr ⟨rfl, hw, .inr (.inl ⟨d, i, hl, hr, h⟩)⟩
      · simp only [State.fetchDecode, he] at h
        exact .inr ⟨rfl, hw, .inr (.inr ⟨d, hl, hr, by simpa [eq_comm] using h⟩)⟩
    · simp [hw] at h

/-- Everything a host operation can do. -/
theorem hostStep_cases {op : HostOp} {s t : State} (h : hostStep op s = .next t) :
    s.fsm = .halted ∧ t = op.apply s := by
  unfold hostStep at h
  cases hf : s.fsm <;> simp_all [eq_comm]

/-- An invariant of the starting states that every step and every host operation keeps holds of every state they lead to. -/
theorem reachable_invariant {start I : State → Prop} (h0 : ∀ s, start s → I s)
    (hhost : ∀ op s t, I s → hostStep op s = .next t → I t) (hstep : ∀ s t, I s → step s = .next t → I t)
    {s : State} (hs : ReachableFrom start s) : I s := by
  induction hs with
  | base h => exact h0 _ h
  | host op _ h ih => exact hhost op _ _ ih h
  | step _ h ih => exact hstep _ _ ih h

end Sys2Proof.Machine
end

