-- ==== Sys2Proof/Tests/Slice0.lean ====
section
/-! SUPPORT. The model's own tests: well-formedness smoke tests, words written out from 30_encoding.md R51 and R55, the
vectors of 95_test_vectors.md (each test names its vector), and a witness for the hypotheses of every statement. -/

namespace Sys2Proof.Tests

open Sys2Proof.Machine
open Sys2Proof.Spec (Ready At)

/-! ### Well-formedness: each check refuses an ill-formed term -/

theorem test_wf_t0 : t0.wf = true := by decide

theorem test_wf_refuses_length_zero : OpTable.wf [⟨0xEA, .tax, 0, 2, .noneAddressing⟩] = false := by decide

theorem test_wf_refuses_length_four : OpTable.wf [⟨0xEA, .tax, 4, 2, .noneAddressing⟩] = false := by decide

theorem test_wf_refuses_duplicate_code :
    OpTable.wf [⟨0xEA, .tax, 1, 2, .noneAddressing⟩, ⟨0xEA, .inx, 1, 2, .noneAddressing⟩] = false := by decide

theorem test_wf_refuses_falling_codes :
    OpTable.wf [⟨0xEA, .tax, 1, 2, .noneAddressing⟩, ⟨0xE8, .inx, 1, 2, .noneAddressing⟩] = false := by decide

theorem test_wf_refuses_config_of_ill_formed_table :
    Config.wf ⟨[⟨0xEA, .tax, 0, 2, .noneAddressing⟩], .stub, .preIndexed⟩ = false := by decide

theorem test_wfIn_refuses_instruction_without_row :
    Instr.wfIn [⟨0xAA, .tax, 1, 2, .noneAddressing⟩] .inx = false := by decide

theorem test_wfIn_refuses_row_of_another_length :
    Instr.wfIn [⟨0xAA, .tax, 2, 2, .noneAddressing⟩] .tax = false := by decide

theorem test_wfIn_refuses_row_of_another_mode :
    Instr.wfIn [⟨0xA9, .lda, 2, 2, .zeroPage⟩] (.ldaImmediate 0xC0) = false := by decide

theorem test_memory_wf_refuses_listed_zero : Memory.wf [(5, 0)] = false := by decide

theorem test_memory_wf_refuses_repeated_address : Memory.wf [(5, 1), (5, 2)] = false := by decide

theorem test_memory_wf_refuses_address_outside : Memory.wf [(65536, 1)] = false := by decide

/-! ### Decoding: a word of every constructor, from R51 and R55 -/

theorem test_decode_control_and_register :
    decode [0x00] = .ok (.brk, []) ∧
    decode [0x0A] = .ok (.aslA, []) ∧
    decode [0xAA] = .ok (.tax, []) ∧
    decode [0xE8] = .ok (.inx, []) := by
  refine ⟨?_, ?_, ?_, ?_⟩ <;> rfl

theorem test_decode_and :
    decode [0x29, 0x97] = .ok (.andImmediate 0x97, []) ∧
    decode [0x25, 0xB2] = .ok (.andZeroPage 0xB2, []) ∧
    decode [0x35, 0xCD] = .ok (.andZeroPageX 0xCD, []) ∧
    decode [0x2D, 0xE8, 0x1D] = .ok (.andAbsolute 0x1DE8, []) ∧
    decode [0x3D, 0x03, 0x38] = .ok (.andAbsoluteX 0x3803, []) ∧
    decode [0x39, 0x1E, 0x53] = .ok (.andAbsoluteY 0x531E, []) ∧
    decode [0x21, 0x39] = .ok (.andIndirectX 0x39, []) ∧
    decode [0x31, 0x54] = .ok (.andIndirectY 0x54, []) := by
  refine ⟨?_, ?_, ?_, ?_, ?_, ?_, ?_, ?_⟩ <;> rfl

theorem test_decode_lda :
    decode [0xA9, 0x6F] = .ok (.ldaImmediate 0x6F, []) ∧
    decode [0xA5, 0x8A] = .ok (.ldaZeroPage 0x8A, []) ∧
    decode [0xB5, 0xA5] = .ok (.ldaZeroPageX 0xA5, []) ∧
    decode [0xAD, 0xC0, 0xF5] = .ok (.ldaAbsolute 0xF5C0, []) ∧
    decode [0xBD, 0xDB, 0x10] = .ok (.ldaAbsoluteX 0x10DB, []) ∧
    decode [0xB9, 0xF6, 0x2B] = .ok (.ldaAbsoluteY 0x2BF6, []) ∧
    decode [0xA1, 0x11] = .ok (.ldaIndirectX 0x11, []) ∧
    decode [0xB1, 0x2C] = .ok (.ldaIndirectY 0x2C, []) := by
  refine ⟨?_, ?_, ?_, ?_, ?_, ?_, ?_, ?_⟩ <;> rfl

theorem test_decode_sta :
    decode [0x85, 0x47] = .ok (.staZeroPage 0x47, []) ∧
    decode [0x95, 0x62] = .ok (.staZeroPageX 0x62, []) ∧
    decode [0x8D, 0x7D, 0xB2] = .ok (.staAbsolute 0xB27D, []) ∧
    decode [0x9D, 0x98, 0xCD] = .ok (.staAbsoluteX 0xCD98, []) ∧
    decode [0x99, 0xB3, 0xE8] = .ok (.staAbsoluteY 0xE8B3, []) ∧
    decode [0x81, 0xCE] = .ok (.staIndirectX 0xCE, []) ∧
    decode [0x91, 0xE9] = .ok (.staIndirectY 0xE9, []) := by
  refine ⟨?_, ?_, ?_, ?_, ?_, ?_, ?_⟩ <;> rfl

theorem test_decode_refuses_by_name :
    decode [] = .error .noBytes ∧ decode [0xEA, 0x00] = .error (.illegalOpcode 0xEA) ∧
    decode [0xAD, 0x10] = .error (.truncated (.ldaAbsolute 0x0010)) := by
  refine ⟨?_, ?_, ?_⟩ <;> rfl

theorem test_decodeTableWord_counts_from_the_first_byte :
    decodeTableWord 24 0x12348D = some (.staAbsolute 0x1234) ∧ decodeTableWord 8 0x12348D = some (.staAbsolute 0x0000) ∧
    decodeTableWord 8 0xEA = none := by
  refine ⟨?_, ?_, ?_⟩ <;> rfl

/-! ### One step, from the vectors of 95_test_vectors.md -/

/-- A `Running` machine with the given configuration, registers and memory cells. -/
def machine (c : Config) (a x y p : Byte) (pc : Addr) (cells : List (Addr × Byte)) : State :=
  { State.powerOn c with
    a := a, x := x, y := y, p := p, pc := pc, fsm := .running
    mem := cells.foldl (fun m cell => m.write cell.1 cell.2) [] }

/-- Cells holding consecutive bytes from an address. -/
def bytesAt (addr : Addr) : List Byte → List (Addr × Byte)
  | [] => []
  | b :: rest => (addr, b) :: bytesAt (addr + 1) rest

/-- The state a step answers. -/
def after (s : State) : Option State :=
  match step s with
  | .next t => some t
  | _ => none

/-- The vectors' columns: `A X Y P pc` and `fsm/cause`. -/
structure View where
  a : Byte
  x : Byte
  y : Byte
  p : Byte
  pc : Addr
  fsm : Fsm
  haltCause : HaltCause
  deriving DecidableEq, Repr

/-- A state's columns. -/
def view (s : State) : View := ⟨s.a, s.x, s.y, s.p, s.pc, s.fsm, s.haltCause⟩

/-- The default configuration with `ASL_VARIANT = complete`. -/
def cComplete : Config := { Config.default with aslVariant := .complete }

/-- The default configuration with `INDY_VARIANT = post_indexed`. -/
def cPost : Config := { Config.default with indyVariant := .postIndexed }

/-- T0 with the row of V-FLT-1: 0xEA for an LDA with NoneAddressing. -/
def cFaultLda : Config := { Config.default with opTable := t0 ++ [⟨0xEA, .lda, 1, 2, .noneAddressing⟩] }

/-- T0 with the row of V-FLT-2. -/
def cFaultSta : Config := { Config.default with opTable := t0 ++ [⟨0xEA, .sta, 1, 2, .noneAddressing⟩] }

/-- V-AND-5. -/
theorem test_and_immediate_keeps_reserved_bits :
    (after (machine Config.default 0x80 0x00 0x00 0x7D 0x8000 (bytesAt 0x8000 [0x29, 0x80]))).map view =
      some ⟨0x80, 0x00, 0x00, 0xFD, 0x8002, .running, .none⟩ := by
  decide

/-- V-AND-1. -/
theorem test_and_immediate_does_not_store :
    (after (machine Config.default 0xF3 0x00 0x00 0x00 0x8000 (bytesAt 0x8000 [0x29, 0x0F]))).map view =
      some ⟨0xF3, 0x00, 0x00, 0x00, 0x8002, .running, .none⟩ := by
  decide

/-- V-AND-6. -/
theorem test_and_zeroPage :
    (after (machine Config.default 0x81 0x00 0x00 0x00 0x8000 (bytesAt 0x8000 [0x25, 0x10] ++ [(0x0010, 0xC0)]))).map view =
      some ⟨0x81, 0x00, 0x00, 0x80, 0x8002, .running, .none⟩ := by
  decide

/-- V-AND-7. -/
theorem test_and_zeroPageX_wraps :
    (after (machine Config.default 0x0F 0x02 0x00 0x00 0x8000 (bytesAt 0x8000 [0x35, 0xFF] ++ [(0x0001, 0xF0)]))).map view =
      some ⟨0x0F, 0x02, 0x00, 0x02, 0x8002, .running, .none⟩ := by
  decide

/-- V-AND-8. -/
theorem test_and_absolute :
    (after (machine Config.default 0xFF 0x00 0x00 0x00 0x8000 (bytesAt 0x8000 [0x2D, 0x34, 0x12] ++ [(0x1234, 0x7E)]))).map view =
      some ⟨0xFF, 0x00, 0x00, 0x00, 0x8003, .running, .none⟩ := by
  decide

/-- V-AND-9. -/
theorem test_and_absoluteX_wraps :
    (after (machine Config.default 0xAA 0x02 0x00 0x00 0x8000 (bytesAt 0x8000 [0x3D, 0xFF, 0xFF] ++ [(0x0001, 0xA0)]))).map view =
      some ⟨0xAA, 0x02, 0x00, 0x80, 0x8003, .running, .none⟩ := by
  decide

/-- V-AND-10. -/
theorem test_and_absoluteY :
    (after (machine Config.default 0x55 0x00 0x03 0x00 0x8000 (bytesAt 0x8000 [0x39, 0x00, 0x02] ++ [(0x0203, 0xAA)]))).map view =
      some ⟨0x55, 0x00, 0x03, 0x02, 0x8003, .running, .none⟩ := by
  decide

/-- V-AND-11. -/
theorem test_and_indirectX :
    (after (machine Config.default 0x1C 0x04 0x00 0x00 0x8000 (bytesAt 0x8000 [0x21, 0x20] ++ [(0x0024, 0x74), (0x0025, 0x20), (0x2074, 0x18)]))).map view =
      some ⟨0x1C, 0x04, 0x00, 0x00, 0x8002, .running, .none⟩ := by
  decide

/-- V-AND-12. -/
theorem test_and_indirectY_preIndexed :
    (after (machine Config.default 0xFF 0x00 0x04 0x00 0x8000 (bytesAt 0x8000 [0x31, 0x20] ++ [(0x0024, 0x74), (0x0025, 0x20), (0x2074, 0x80)]))).map view =
      some ⟨0xFF, 0x00, 0x04, 0x80, 0x8002, .running, .none⟩ := by
  decide

/-- V-AND-13. -/
theorem test_and_indirectY_postIndexed :
    (after (machine cPost 0xFF 0x00 0x04 0x00 0x8000 (bytesAt 0x8000 [0x31, 0x20] ++ [(0x0020, 0x74), (0x0021, 0x20), (0x2078, 0x01)]))).map view =
      some ⟨0xFF, 0x00, 0x04, 0x00, 0x8002, .running, .none⟩ := by
  decide

/-- V-ASL-1. -/
theorem test_asl_stub :
    (after (machine Config.default 0x81 0x00 0x00 0x80 0x8000 (bytesAt 0x8000 [0x0A]))).map view =
      some ⟨0x81, 0x00, 0x00, 0x80, 0x8001, .running, .none⟩ := by
  decide

/-- V-ASL-4. -/
theorem test_asl_complete_carries :
    (after (machine cComplete 0x80 0x00 0x00 0x80 0x8000 (bytesAt 0x8000 [0x0A]))).map view =
      some ⟨0x00, 0x00, 0x00, 0x03, 0x8001, .running, .none⟩ := by
  decide

/-- V-ASL-8. -/
theorem test_asl_complete_keeps_reserved_bits :
    (after (machine cComplete 0x01 0x00 0x00 0x7C 0x8000 (bytesAt 0x8000 [0x0A]))).map view =
      some ⟨0x02, 0x00, 0x00, 0x7C, 0x8001, .running, .none⟩ := by
  decide

/-- V-LDA-1. -/
theorem test_lda_immediate :
    (after (machine Config.default 0x00 0x00 0x00 0x00 0x8000 (bytesAt 0x8000 [0xA9, 0xC0]))).map view =
      some ⟨0xC0, 0x00, 0x00, 0x80, 0x8002, .running, .none⟩ := by
  decide

/-- V-LDA-16. -/
theorem test_lda_immediate_across_the_top :
    (after (machine Config.default 0x00 0x00 0x00 0x00 0xFFFF (bytesAt 0xFFFF [0xA9, 0x66]))).map view =
      some ⟨0x66, 0x00, 0x00, 0x00, 0x0001, .running, .none⟩ := by
  decide

/-- V-LDA-4. -/
theorem test_lda_zeroPage :
    (after (machine Config.default 0x00 0x00 0x00 0x00 0x8000 (bytesAt 0x8000 [0xA5, 0x10] ++ [(0x0010, 0x55)]))).map view =
      some ⟨0x55, 0x00, 0x00, 0x00, 0x8002, .running, .none⟩ := by
  decide

/-- V-LDA-6. -/
theorem test_lda_zeroPageX_wraps :
    (after (machine Config.default 0x00 0x01 0x00 0x00 0x8000 (bytesAt 0x8000 [0xB5, 0xFF] ++ [(0x0000, 0x33), (0x0100, 0x44)]))).map view =
      some ⟨0x33, 0x01, 0x00, 0x00, 0x8002, .running, .none⟩ := by
  decide

/-- V-LDA-7. -/
theorem test_lda_absolute_zero :
    (after (machine Config.default 0x09 0x00 0x00 0x00 0x8000 (bytesAt 0x8000 [0xAD, 0x34, 0x12]))).map view =
      some ⟨0x00, 0x00, 0x00, 0x02, 0x8003, .running, .none⟩ := by
  decide

/-- V-LDA-17. -/
theorem test_lda_absolute_across_the_top :
    (after (machine Config.default 0x00 0x00 0x00 0x00 0xFFFE (bytesAt 0xFFFE [0xAD, 0x10, 0x00] ++ [(0x0010, 0x21)]))).map view =
      some ⟨0x21, 0x00, 0x00, 0x00, 0x0001, .running, .none⟩ := by
  decide

/-- V-LDA-8. -/
theorem test_lda_absoluteX_page_cross :
    (after (machine Config.default 0x00 0x20 0x00 0x00 0x8000 (bytesAt 0x8000 [0xBD, 0xF0, 0x12] ++ [(0x1310, 0x42)]))).map view =
      some ⟨0x42, 0x20, 0x00, 0x00, 0x8003, .running, .none⟩ := by
  decide

/-- V-LDA-10. -/
theorem test_lda_absoluteY :
    (after (machine Config.default 0x00 0x00 0x03 0x00 0x8000 (bytesAt 0x8000 [0xB9, 0x00, 0x02] ++ [(0x0203, 0xFF)]))).map view =
      some ⟨0xFF, 0x00, 0x03, 0x80, 0x8003, .running, .none⟩ := by
  decide

/-- V-LDA-12. -/
theorem test_lda_indirectX_pointer_at_FF :
    (after (machine Config.default 0x00 0x04 0x00 0x00 0x8000 (bytesAt 0x8000 [0xA1, 0xFB] ++ [(0x00FF, 0x34), (0x0000, 0x12), (0x0100, 0x99), (0x1234, 0xAB), (0x9934, 0xCD)]))).map view =
      some ⟨0xAB, 0x04, 0x00, 0x80, 0x8002, .running, .none⟩ := by
  decide

/-- V-LDA-13. -/
theorem test_lda_indirectY_preIndexed :
    (after (machine Config.default 0x00 0x00 0x04 0x00 0x8000 (bytesAt 0x8000 [0xB1, 0x20] ++ [(0x0024, 0x74), (0x0025, 0x20), (0x2074, 0x5A), (0x0020, 0x11), (0x0021, 0x22)]))).map view =
      some ⟨0x5A, 0x00, 0x04, 0x00, 0x8002, .running, .none⟩ := by
  decide

/-- V-LDA-15. -/
theorem test_lda_indirectY_postIndexed_wraps :
    (after (machine cPost 0x00 0x00 0x10 0x00 0x8000 (bytesAt 0x8000 [0xB1, 0xFF] ++ [(0x00FF, 0xF8), (0x0000, 0xFF), (0x0008, 0x66), (0x0100, 0x12)]))).map view =
      some ⟨0x66, 0x00, 0x10, 0x00, 0x8002, .running, .none⟩ := by
  decide

/-- V-TAX-2. -/
theorem test_tax :
    (after (machine Config.default 0x00 0x55 0x00 0x80 0x8000 (bytesAt 0x8000 [0xAA]))).map view =
      some ⟨0x00, 0x00, 0x00, 0x02, 0x8001, .running, .none⟩ := by
  decide

/-- V-INX-2. -/
theorem test_inx_wraps :
    (after (machine Config.default 0x00 0xFF 0x00 0x80 0x8000 (bytesAt 0x8000 [0xE8]))).map view =
      some ⟨0x00, 0x00, 0x00, 0x02, 0x8001, .running, .none⟩ := by
  decide

/-- V-INX-5. -/
theorem test_inx_at_the_top :
    (after (machine Config.default 0x00 0x00 0x00 0x00 0xFFFF (bytesAt 0xFFFF [0xE8]))).map view =
      some ⟨0x00, 0x01, 0x00, 0x00, 0x0000, .running, .none⟩ := by
  decide

/-- V-BRK-1. -/
theorem test_brk :
    (after (machine Config.default 0x01 0x02 0x03 0x82 0x8000 (bytesAt 0x8000 [0x00]))).map view =
      some ⟨0x01, 0x02, 0x03, 0x82, 0x8001, .halted, .brk⟩ := by
  decide

/-- V-ILL-1, V-ILL-4. -/
theorem test_illegal_opcode :
    (after (machine Config.default 0x01 0x02 0x03 0x82 0x8000 (bytesAt 0x8000 [0xA2]))).map view =
      some ⟨0x01, 0x02, 0x03, 0x82, 0x8001, .halted, .illegalOpcode⟩ := by
  decide

/-- V-FLT-1. -/
theorem test_addressing_fault_lda :
    (after (machine cFaultLda 0x01 0x02 0x03 0x82 0x8000 (bytesAt 0x8000 [0xEA]))).map view =
      some ⟨0x01, 0x02, 0x03, 0x82, 0x8001, .halted, .addrModeFault⟩ := by
  decide

/-- V-FLT-2. -/
theorem test_addressing_fault_sta :
    (after (machine cFaultSta 0x01 0x02 0x03 0x82 0x8000 (bytesAt 0x8000 [0xEA]))).map view =
      some ⟨0x01, 0x02, 0x03, 0x82, 0x8001, .halted, .addrModeFault⟩ := by
  decide

/-- V-STA-1. -/
theorem test_sta_zeroPage :
    (after (machine Config.default 0xC0 0x00 0x00 0x82 0x8000 (bytesAt 0x8000 [0x85, 0x10]))).map
      (fun t => (t.p, t.pc, t.mem.read 0x0010)) = some (0x82, 0x8002, 0xC0) := by
  decide

/-- V-STA-2. -/
theorem test_sta_zeroPageX_wraps :
    (after (machine Config.default 0x07 0x20 0x00 0x00 0x8000 (bytesAt 0x8000 [0x95, 0xF0]))).map
      (fun t => (t.p, t.pc, t.mem.read 0x0010, t.mem.read 0x0110)) = some (0x00, 0x8002, 0x07, 0x00) := by
  decide

/-- V-STA-9. -/
theorem test_sta_absolute_own_operand :
    (after (machine Config.default 0xEE 0x00 0x00 0x00 0x8000 (bytesAt 0x8000 [0x8D, 0x01, 0x80]))).map
      (fun t => (t.p, t.pc, t.mem.read 0x8001, t.mem.read 0x8002)) = some (0x00, 0x8003, 0xEE, 0x80) := by
  decide

/-- V-STA-11. -/
theorem test_sta_absolute_of_zero :
    (after (machine Config.default 0x00 0x00 0x00 0x02 0x8000 (bytesAt 0x8000 [0x8D, 0x00, 0x00] ++ [(0x0000, 0x77)]))).map
      (fun t => (t.p, t.pc, t.mem.read 0x0000)) = some (0x02, 0x8003, 0x00) := by
  decide

/-- V-STA-4. -/
theorem test_sta_absoluteX_leaves_the_zero_page :
    (after (machine Config.default 0x11 0x01 0x00 0x00 0x8000 (bytesAt 0x8000 [0x9D, 0xFF, 0x00]))).map
      (fun t => (t.p, t.pc, t.mem.read 0x0100, t.mem.read 0x0000)) = some (0x00, 0x8003, 0x11, 0x00) := by
  decide

/-- V-STA-5. -/
theorem test_sta_absoluteY :
    (after (machine Config.default 0x22 0x00 0x10 0x00 0x8000 (bytesAt 0x8000 [0x99, 0x00, 0x03]))).map
      (fun t => (t.p, t.pc, t.mem.read 0x0310)) = some (0x00, 0x8003, 0x22) := by
  decide

/-- V-STA-6. -/
theorem test_sta_indirectX :
    (after (machine Config.default 0x33 0x04 0x00 0x00 0x8000 (bytesAt 0x8000 [0x81, 0x20] ++ [(0x0024, 0x74), (0x0025, 0x20)]))).map
      (fun t => (t.p, t.pc, t.mem.read 0x2074)) = some (0x00, 0x8002, 0x33) := by
  decide

/-- V-STA-7. -/
theorem test_sta_indirectY_preIndexed :
    (after (machine Config.default 0x44 0x00 0x04 0x00 0x8000 (bytesAt 0x8000 [0x91, 0x20] ++ [(0x0024, 0x74), (0x0025, 0x20)]))).map
      (fun t => (t.p, t.pc, t.mem.read 0x2074)) = some (0x00, 0x8002, 0x44) := by
  decide

/-- V-STA-8. -/
theorem test_sta_indirectY_postIndexed :
    (after (machine cPost 0x44 0x00 0x04 0x00 0x8000 (bytesAt 0x8000 [0x91, 0x20] ++ [(0x0020, 0x74), (0x0021, 0x20)]))).map
      (fun t => (t.p, t.pc, t.mem.read 0x2078, t.mem.read 0x2074)) = some (0x00, 0x8002, 0x44, 0x00) := by
  decide

/-! ### Memory, addressing, host operations -/

/-- A written zero leaves no entry, so equal memories are equal lists. -/
theorem test_write_of_zero_removes_the_entry : (Memory.write [(5, 1), (6, 2)] 5 0) = [(6, 2)] := by decide

/-- V-MEM-2 to V-MEM-4. -/
theorem test_word_reads_wrap :
    Memory.read16 [(0, 0x12), (0xFFFF, 0x34)] 0xFFFF = 0x1234 ∧
    Memory.zpRead16 [(0, 0x12), (0xFF, 0x34), (0x100, 0x99)] 0xFF = 0x1234 ∧
    Memory.read16 [(0, 0x12), (0xFF, 0x34), (0x100, 0x99)] 0x00FF = 0x9934 := by decide

/-- V-AM-2, V-AM-7, V-AM-9, V-AM-18, V-AM-21: the forms no instruction of T0 shows. -/
theorem test_resolve_corner_modes :
    resolve .immediate (machine Config.default 0 0 0 0 0x0000 []) = some 0x0000 ∧
    resolve .zeroPageY (machine Config.default 0 0 0x03 0 0x8001 [(0x8001, 0xFE)]) = some 0x0001 ∧
    resolve .absolute (machine Config.default 0 0 0 0 0xFFFF [(0xFFFF, 0x34), (0x0000, 0x12)]) = some 0x1234 ∧
    resolve .indirectY (machine cPost 0 0 0x04 0 0x8001 [(0x8001, 0x20), (0x0020, 0x11), (0x0021, 0x22)]) = some 0x2215 ∧
    resolve .noneAddressing (machine Config.default 0 0 0 0 0x8001 []) = none := by decide

/-- V-FL-2, V-FL-3. -/
theorem test_updateCarry : updateCarry false 0x83 = 0x82 ∧ updateCarry true 0xFE = 0xFF := by decide

/-- V-RST-1: the `Reset` operation leaves the power-on state as it is. -/
theorem test_reset_of_power_on : State.reset.applyReset = State.reset := by decide

/-- V-RST-2: `Y`, `fsm`, `halt_cause` and memory are untouched. -/
theorem test_reset_operation :
    State.applyReset { machine Config.default 0x12 0x34 0x56 0x83 0x9000 [(0xFFFD, 0x80)] with
      fsm := .halted, haltCause := .brk } =
    { machine Config.default 0x00 0x00 0x56 0x00 0x8000 [(0xFFFD, 0x80)] with fsm := .halted, haltCause := .brk } := by
  decide

/-- S3 and rule R170: the machine just after the load and the reset. -/
theorem test_run_begins_at_the_program :
    (State.beginRun [0xA9, 0xC0, 0xAA, 0xE8, 0x00] State.reset).mem =
      [(0x8000, 0xA9), (0x8001, 0xC0), (0x8002, 0xAA), (0x8003, 0xE8), (0xFFFD, 0x80)] ∧
    view (State.beginRun [0xA9, 0xC0, 0xAA, 0xE8, 0x00] State.reset) = ⟨0, 0, 0, 0, 0x8000, .running, .none⟩ := by decide

/-- V-LD-1: `Run([])` takes one step, a BRK. -/
theorem test_run_of_the_empty_program :
    (match run 2 [] State.reset with
      | .next t => some (view t)
      | _ => none) = some ⟨0, 0, 0, 0, 0x8001, .halted, .brk⟩ := by decide

/-- An ASL whose table row has length 3 advances by the table's length (rule R166, 93_implementation_defined.md U12). -/
theorem test_advance_uses_the_tables_length :
    (after (machine { Config.default with opTable := [⟨0x0A, .asl, 3, 2, .absolute⟩] } 0x81 0 0 0 0x8000
      [(0x8000, 0x0A)])).map (fun t => (t.pc, t.fsm)) = some (0x8003, .running) := by decide

/-- STA Immediate in another table stores to its own operand byte (30_encoding.md, notes on T0). -/
theorem test_sta_immediate_of_another_table :
    (after (machine { Config.default with opTable := [⟨0x89, .sta, 2, 2, .immediate⟩] } 0x5A 0 0 0 0x8000
      [(0x8000, 0x89), (0x8001, 0x11)])).map (fun t => (t.pc, t.mem.read 0x8001)) = some (0x8002, 0x5A) := by decide

/-- A word placed after reset runs as the first instruction. -/
theorem test_placed_word_runs_after_reset :
    (after (State.reset.withFetchWord 16 0xC0A9)).map view = some ⟨0xC0, 0, 0, 0x80, 0x0002, .running, .none⟩ := by decide

/-! ### Witnesses: the hypotheses of each statement, met together -/

theorem witness_HostResetClearsAXPAndLoadsPcFromVector :
    State.reset.fsm = .halted := by decide

theorem witness_HostResetIsIdempotent :
    hostStep .reset { State.reset with a := 0x12, mem := [(0xFFFC, 0x34)] } = .next { State.reset with pc := 0x0034, mem := [(0xFFFC, 0x34)] } := rfl

theorem witness_ZeroPageWordReadWrapsInsideThePage :
    Memory.wf [(0x100, 1)] = true ∧ Memory.zpRead16 [(0x100, 1)] 0xFF ≠ Memory.read16 [(0x100, 1)] 0x00FF := by decide

theorem witness_CanonicalMemoriesThatReadAlikeAreEqual :
    Memory.wf [(0xFFFF, 1)] = true ∧ Memory.wf (Memory.write [] 0xFFFF 1) = true ∧
    ∀ addr, Memory.read [(0xFFFF, 1)] addr = (Memory.write [] 0xFFFF 1).read addr := ⟨rfl, rfl, fun _ => rfl⟩

theorem witness_LoadPlacesTheProgramAndTheVector :
    (List.replicate 0x8000 (0xE8 : Byte)).length ≤ 0x8000 := by rw [List.length_replicate]

/-- The clauses of the load statement at their boundaries: the vector, the last and the first byte of a program, one past
it, and one below 0x8000. -/
theorem witness_LoadPlacesTheProgramAndTheVector_clauses :
    let m := Memory.load [(0x7FFF, 7), (0x8002, 8)] [0xA9, 0xC0]
    (m.read 0xFFFC, m.read 0xFFFD, m.read 0x8000, m.read 0x8001, m.read 0x8002, m.read 0x7FFF) =
      (0x00, 0x80, 0xA9, 0xC0, 8, 7) := by decide

theorem witness_OverlongProgramIsRejectedUntouched :
    State.reset.fsm = .halted ∧ 0x8000 < (List.replicate 0x8001 (0xE8 : Byte)).length := by
  rw [List.length_replicate]; decide

theorem witness_FlagHelpersWriteOneBitEach :
    (7 : Nat) < 8 ∧ updateNegative 0x80 0x00 = 0x80 ∧ (1 : Nat) < 8 ∧ updateZero 0x00 0x7D = 0x7F ∧ updateZero 0x01 0xFF = 0xFD := by decide

theorem witness_ZeroAndNegativeAreIndependent :
    (0 : Nat) ≠ 1 ∧ (0 : Nat) ≠ 7 ∧ (State.setZN 0x80 { State.reset with p := 0x7D }).p = 0xFD := by decide

theorem witness_CarryHelperWritesBitZeroOnly :
    (0 : Nat) < 8 ∧ (7 : Nat) < 8 ∧ updateCarry true 0x80 = 0x81 := by decide

theorem witness_IndirectYFollowsItsVariant :
    Config.default.indyVariant = .preIndexed ∧ cPost.indyVariant = .postIndexed := by decide

theorem witness_ZeroPageModesStayInTheZeroPage :
    Mode.zeroPageX ∈ [Mode.zeroPage, .zeroPageX, .zeroPageY] ∧
    Machine.resolve .zeroPageX (machine Config.default 0 0xFF 0 0 0x8001 [(0x8001, 0xFF)]) = some 0x00FE ∧
    Machine.resolve .zeroPageX (machine Config.default 0 0 0 0 0x8001 [(0x8001, 0xFF)]) = some 0x00FF := by decide

theorem witness_IndirectYVariantsAgreeWhenYIsZero :
    State.reset.y = 0x00 := by decide

theorem witness_DecodeOfEncodeUnderEveryTable :
    t0.wf = true ∧ Instr.wfIn t0 (.ldaAbsoluteX 0xFFFF) = true ∧
    cFaultLda.opTable.wf = true ∧ Instr.wfIn cFaultLda.opTable (.staIndirectY 0x00) = true := by decide

theorem witness_EncodeOfDecodeUnderT0 :
    decode [0xAD, 0xFF, 0xFF, 0x00] = .ok (.ldaAbsolute 0xFFFF, [0x00]) := rfl

theorem witness_WellFormedTableIsAFunction :
    t0.wf = true ∧ t0.lookup 0xE8 = some ⟨0xE8, .inx, 1, 2, .noneAddressing⟩ := by decide

theorem witness_IllegalOpcodesOfT0EndTheRun :
    Ready (machine Config.default 0xF3 0 0 0 0x8000 [(0x8000, 0xFF)]) ∧ t0.lookup 0xFF = none ∧ t0.lookup 0xE8 ≠ none ∧
    Config.default.opTable.lookup ((machine Config.default 0xF3 0 0 0 0x8000 [(0x8000, 0xFF)]).mem.read 0x8000) = none := by decide

theorem witness_AndFormsSetFlagsAndKeepTheAccumulator :
    Config.default.indyVariant = .preIndexed ∧ cPost.indyVariant = .postIndexed := by decide

theorem witness_AslAdvancesInStubAndShiftsInComplete :
    Config.default.aslVariant = .stub ∧ cComplete.aslVariant = .complete ∧ (2 : Nat) ≠ 0 ∧ (2 : Nat) ≠ 1 ∧ (2 : Nat) ≠ 7 := by decide

theorem witness_LdaFormsLoadTheAccumulator :
    (machine Config.default 0 0 4 0 0 []).config.indyVariant = .preIndexed ∧ (machine cPost 0 0 4 0 0 []).config.indyVariant = .postIndexed := by decide

theorem witness_LdaImmediateAndZeroPageStep :
    (machine Config.default 0 0 0 0 0xFFFF [(0xFFFF, 0xA9)]).mem.read 0xFFFF = 0xA9 ∧
    (machine Config.default 0 0 0 0 0xFFFF [(0xFFFF, 0xA5)]).mem.read 0xFFFF = 0xA5 ∧
    (machine Config.default 0 0 0 0 0xFFFF [(0xFFFF, 0xA5)]).fsm = .running ∧ Config.default.opTable = t0 := by decide

theorem witness_StaFormsStoreOneByte :
    (machine Config.default 9 0 4 0 0 []).config.indyVariant = .preIndexed ∧ (machine cPost 9 0 4 0 0 []).config.indyVariant = .postIndexed := by decide

theorem witness_InxIncrementsXModulo256 :
    (0 : Nat) ≠ 1 ∧ (0 : Nat) ≠ 7 := by decide

theorem witness_StepRunsTheDecodedInstruction :
    Ready (machine Config.default 0xF3 0 0 0 0xFFFF [(0xFFFF, 0x29), (0x0000, 0x0F)]) ∧
    decodeIn (machine Config.default 0xF3 0 0 0 0xFFFF [(0xFFFF, 0x29), (0x0000, 0x0F)]).config.opTable
      [(machine Config.default 0xF3 0 0 0 0xFFFF [(0xFFFF, 0x29), (0x0000, 0x0F)]).mem.read 0xFFFF, (machine Config.default 0xF3 0 0 0 0xFFFF [(0xFFFF, 0x29), (0x0000, 0x0F)]).mem.read 0x0000, (machine Config.default 0xF3 0 0 0 0xFFFF [(0xFFFF, 0x29), (0x0000, 0x0F)]).mem.read 0x0001] =
      .ok (.andImmediate 0x0F, [0x00]) := ⟨by decide, rfl⟩

theorem witness_StepRefinesTheDispatchLoop :
    Ready (machine cFaultSta 1 2 3 0x82 0x8000 [(0x8000, 0xEA)]) := by decide

theorem witness_AndInAnyModeOfAnyTable :
    (Ready (machine Config.default 1 2 3 0 0x8000 [(0x8000, 0x25)]) ∧ At ⟨0x25, .and, 2, 3, .zeroPage⟩ (machine Config.default 1 2 3 0 0x8000 [(0x8000, 0x25)]) ∧
      Machine.resolve .zeroPage (machine Config.default 1 2 3 0 0x8000 [(0x8000, 0x25)]).fetched = some 0x0000) ∧
    (Ready (machine { Config.default with opTable := [⟨0xEA, .and, 1, 2, .noneAddressing⟩] } 1 2 3 0 0x8000 [(0x8000, 0xEA)]) ∧
      At ⟨0xEA, .and, 1, 2, .noneAddressing⟩
        (machine { Config.default with opTable := [⟨0xEA, .and, 1, 2, .noneAddressing⟩] } 1 2 3 0 0x8000 [(0x8000, 0xEA)]) ∧
      Machine.resolve .noneAddressing State.reset = none) := by decide

theorem witness_LdaInAnyModeOfAnyTable :
    (Ready (machine Config.default 1 2 3 0 0x8000 [(0x8000, 0xA5)]) ∧ At ⟨0xA5, .lda, 2, 3, .zeroPage⟩ (machine Config.default 1 2 3 0 0x8000 [(0x8000, 0xA5)]) ∧
      Machine.resolve .zeroPage (machine Config.default 1 2 3 0 0x8000 [(0x8000, 0xA5)]).fetched = some 0x0000) ∧
    (Ready (machine { Config.default with opTable := [⟨0xEA, .lda, 1, 2, .noneAddressing⟩] } 1 2 3 0 0x8000 [(0x8000, 0xEA)]) ∧
      At ⟨0xEA, .lda, 1, 2, .noneAddressing⟩
        (machine { Config.default with opTable := [⟨0xEA, .lda, 1, 2, .noneAddressing⟩] } 1 2 3 0 0x8000 [(0x8000, 0xEA)]) ∧
      Machine.resolve .noneAddressing State.reset = none) := by decide

theorem witness_StaInAnyModeOfAnyTable :
    (Ready (machine Config.default 1 2 3 0 0x8000 [(0x8000, 0x85)]) ∧ At ⟨0x85, .sta, 2, 3, .zeroPage⟩ (machine Config.default 1 2 3 0 0x8000 [(0x8000, 0x85)]) ∧
      Machine.resolve .zeroPage (machine Config.default 1 2 3 0 0x8000 [(0x8000, 0x85)]).fetched = some 0x0000) ∧
    (Ready (machine { Config.default with opTable := [⟨0xEA, .sta, 1, 2, .noneAddressing⟩] } 1 2 3 0 0x8000 [(0x8000, 0xEA)]) ∧
      At ⟨0xEA, .sta, 1, 2, .noneAddressing⟩
        (machine { Config.default with opTable := [⟨0xEA, .sta, 1, 2, .noneAddressing⟩] } 1 2 3 0 0x8000 [(0x8000, 0xEA)]) ∧
      Machine.resolve .noneAddressing State.reset = none) := by decide

theorem witness_UnknownOpcodeHaltsOnePastTheByte :
    Ready (machine Config.default 1 2 3 0x82 0xFFFF [(0xFFFF, 0x02)]) ∧ Config.default.opTable.lookup 0x02 = none := by decide

theorem witness_AddressingFaultHaltsAndNeverUnderT0 :
    (Ready (machine cFaultLda 1 2 3 0x82 0x8000 [(0x8000, 0xEA)]) ∧ At ⟨0xEA, .lda, 1, 2, .noneAddressing⟩ (machine cFaultLda 1 2 3 0x82 0x8000 [(0x8000, 0xEA)]) ∧ Machine.resolve .noneAddressing (machine cFaultLda 1 2 3 0x82 0x8000 [(0x8000, 0xEA)]).fetched = none) ∧
    after (machine Config.default 0 0 0 0 0xFFFF []) =
      some { machine Config.default 0 0 0 0 0x0000 [] with fsm := .halted, haltCause := .brk } := by decide

theorem witness_HaltedMachineStaysAsItIs :
    State.reset.fsm = .halted := by decide

theorem witness_IllFormedTableIsRefused :
    let c : Config := ⟨[⟨0xEA, .tax, 0, 2, .noneAddressing⟩], .stub, .preIndexed⟩
    (machine c 0 0 0 0 0 []).fsm = .running ∧ c.wf = false ∧ (4 : Nat) > 3 ∧
    Descriptor.wf ⟨0xEA, .tax, 3, 2, .noneAddressing⟩ = true := by decide

theorem witness_RunningStepMovesPcByTheLength :
    Ready (machine Config.default 0 0 0 0 0xFFFF [(0xFFFF, 0xE8)]) ∧
    (after (machine Config.default 0 0 0 0 0xFFFF [(0xFFFF, 0xE8)])).map (fun t => t.fsm) = some .running := by decide

theorem witness_TerminalEventsArePreciseAndExclusive :
    Ready (machine cFaultLda 1 2 3 0 0x8000 [(0x8000, 0xEA)]) ∧
    ((after (machine cFaultLda 1 2 3 0 0x8000 [(0x8000, 0xEA)])).map (fun t => t.haltCause),
     (after (machine Config.default 1 2 3 0 0x8000 [(0x8000, 0xEA)])).map (fun t => t.haltCause),
     (after (machine Config.default 1 2 3 0 0x8000 [])).map (fun t => t.haltCause)) =
      (some .addrModeFault, some .illegalOpcode, some .brk) := by decide

theorem witness_OnlyStaWritesMemory :
    Ready (machine Config.default 7 0 0 0 0x8000 [(0x8000, 0x85)]) ∧
    (after (machine Config.default 7 0 0 0 0x8000 [(0x8000, 0x85)])).map (fun t => t.mem.read 0x0000) = some 7 := by decide

theorem witness_EachRegisterIsWrittenOnlyByItsInstructions :
    (after (machine cComplete 0x81 0 0 0 0x8000 [(0x8000, 0x0A)])).map (fun t => (t.a, t.p)) = some (0x02, 0x01) ∧
    (reservedBits .stub).getLsbD 0 = true ∧ (reservedBits .complete).getLsbD 2 = true := by decide

theorem witness_FlagsInfluenceNothing :
    (after (machine Config.default 0x80 0 0 0x82 0x8000 [(0x8000, 0xAA)])).map (fun t => t.p) = some 0x80 ∧
    At ⟨0xAA, .tax, 1, 2, .noneAddressing⟩ (machine Config.default 0x80 0 0 0x82 0x8000 [(0x8000, 0xAA)]) ∧
    Mnemonic.tax ∈ [Mnemonic.and, .lda, .tax, .inx] := by decide

theorem witness_StoredByteIsTheNextOpcodeFetched :
    Ready (machine Config.default 0xE8 0 0 0 0x8002 [(0x8002, 0x8D), (0x8003, 0x05), (0x8004, 0x80)]) ∧
    decodeIn t0 [0x8D, 0x05, 0x80] = .ok (.staAbsolute (0x8002 + 3), []) ∧
    ((machine Config.default 0xE8 0 0 0 0x8002 [(0x8002, 0x8D), (0x8003, 0x05), (0x8004, 0x80)]).mem.read 0x8002, (machine Config.default 0xE8 0 0 0 0x8002 [(0x8002, 0x8D), (0x8003, 0x05), (0x8004, 0x80)]).mem.read 0x8003, (machine Config.default 0xE8 0 0 0 0x8002 [(0x8002, 0x8D), (0x8003, 0x05), (0x8004, 0x80)]).mem.read 0x8004) =
      (0x8D, 0x05, 0x80) := ⟨by decide, rfl, by decide⟩

theorem witness_PlacedWordIsTheInstructionRun :
    State.reset.config.opTable = t0 ∧ decodeTableWord 24 0xFFFF8D = some (.staAbsolute 0xFFFF) := ⟨rfl, rfl⟩

theorem witness_EveryStepKeepsTheInvariant :
    Inv (machine Config.default 7 0 0 0 0xFFFF [(0xFFFF, 0x85)]) ∧ (after (machine Config.default 7 0 0 0 0xFFFF [(0xFFFF, 0x85)])).isSome = true := by decide

theorem witness_EveryHostOperationKeepsTheInvariant :
    Inv State.reset ∧ hostStep (.write 0xFFFF 1) State.reset = .next { State.reset with mem := [(0xFFFF, 1)] } := ⟨by decide, rfl⟩

theorem witness_RegisterInvariantIsKept :
    RegInv (machine cComplete 0xFF 0 0 0x01 0x8000 [(0x8000, 0x0A)]) ∧
    (after (machine cComplete 0xFF 0 0 0x01 0x8000 [(0x8000, 0x0A)])).isSome = true := by decide

theorem witness_ReachableStatesMeetTheInvariants :
    Config.default.wf = true ∧ Reachable Config.default (State.beginRun [0xE8] State.reset) := 
  ⟨rfl, .host (.run [0xE8]) (.base rfl) rfl⟩

theorem witness_HaltedWithoutCauseOnlyBeforeTheFirstRun :
    Config.default.wf = true ∧ ReachableAfterRun Config.default
      { machine Config.default 0 0 0 0 0x8001 [(0xFFFD, 0x80)] with fsm := .halted, haltCause := .brk } := 
  ⟨rfl, .step (.base ⟨State.reset, [], .base rfl, rfl⟩) rfl⟩

theorem witness_RunLoadsResetsAndStartsAtTheProgram :
    State.reset.fsm = .halted ∧ (List.replicate 0x8000 (0xE8 : Byte)).length ≤ 0x8000 := by
  rw [List.length_replicate]; decide

theorem witness_HostIsRefusedWhileRunning :
    (machine Config.default 0 0 0 0 0 []).fsm = .running := by decide

theorem witness_HostReadsAndWritesWhileHalted :
    State.reset.fsm = .halted := by decide

theorem witness_HaltedRunIsStableUnderMoreFuel :
    dispatchLoop 1 (machine Config.default 0 0 0 0 0 []) =
      .next { machine Config.default 0 0 0 0 1 [] with fsm := .halted, haltCause := .brk } ∧ 1 ≤ 2 := ⟨rfl, by decide⟩

theorem witness_SweepHaltsOrMeetsAnSta :
    Ready (machine Config.default 0 0 0 0 0xFFFF [(0xFFFF, 0xE8)]) ∧
    ∀ b ∈ [(0x0000 : Addr), 0x0001, 0x0002],
      ∃ d, Config.default.opTable.lookup ((machine Config.default 0 0 0 0 0xFFFF [(0xFFFF, 0xE8)]).mem.read b) = some d ∧
        d.mnemonic = .brk := by
  refine ⟨by decide, fun b hb => ?_⟩
  simp only [List.mem_cons, List.not_mem_nil, or_false] at hb
  rcases hb with rfl | rfl | rfl <;> exact ⟨⟨0x00, .brk, 1, 7, .noneAddressing⟩, rfl, rfl⟩

end Sys2Proof.Tests
end

section
/-! SUPPORT. What every cell holds after a 16-bit write, after a copy of bytes and after a program load (20_memory.md R34,
R36), and the statements on the byte write and on the load. -/

namespace Sys2Proof.Machine

/-! ### Reading after the compound writes -/

/-- 20_memory.md R34. The high byte is written last, but no read can tell: the two addresses are never equal. -/
theorem read_write16 (m : Memory) (addr v b : Addr) :
    (m.write16 addr v).read b =
      if b = addr + 1 then hiByte v else if b = addr then loByte v else m.read b := by
  simp only [Memory.write16, read_write]

/-- The cell at `b` is at offset `b - base` of the copy. The offset is taken modulo 65536, so a copy may wrap; it overwrites
none of its own bytes when it is no longer than the memory. -/
theorem read_writeBytes {b : Addr} :
    ∀ (bytes : List Byte) (m : Memory) (base : Addr), bytes.length ≤ 0x10000 →
      (m.writeBytes base bytes).read b = bytes.getD (b - base).toNat (m.read b)
  | [], _, _, _ => rfl
  | v :: rest, m, base, hfit => by
    rw [List.length_cons] at hfit
    rw [Memory.writeBytes, read_writeBytes rest _ _ (by omega)]
    by_cases hb : b = base
    · have hlast : rest.length ≤ (b - (base + 1)).toNat := by bv_omega
      rw [List.getD_eq_default _ _ hlast, hb, read_write_same, BitVec.sub_self]
      rfl
    · have hnext : (b - base).toNat = (b - (base + 1)).toNat + 1 := by bv_omega
      rw [hnext, List.getD_cons_succ, read_write_other m v hb]

/-- 20_memory.md R36 before the vector is written: a copy from `LOAD_BASE` that does not pass the top of memory. -/
theorem read_writeBytes_loadBase (m : Memory) (program : List Byte) (b : Addr) (h : program.length ≤ maxProgramLen) :
    (m.writeBytes loadBase program).read b =
      if 0x8000 ≤ b.toNat ∧ b.toNat < 0x8000 + program.length then program.getD (b.toNat - 0x8000) 0 else m.read b := by
  rw [maxProgramLen] at h
  rw [read_writeBytes program m loadBase (by omega), loadBase]
  split
  next hin =>
    have hoff : (b - 0x8000).toNat = b.toNat - 0x8000 := by bv_omega
    have hlt : b.toNat - 0x8000 < program.length := by omega
    rw [hoff, List.getD_eq_getElem _ _ hlt, List.getD_eq_getElem _ _ hlt]
  next hout =>
    have hpast : program.length ≤ (b - 0x8000).toNat := by bv_omega
    rw [List.getD_eq_default _ _ hpast]

/-- The vector's two cells after a load (R36): the vector is written last, so it wins over the program's bytes there. -/
theorem read_load (m : Memory) (program : List Byte) (b : Addr) :
    (m.load program).read b =
      if b = 0xFFFD then 0x80 else if b = 0xFFFC then 0x00 else (m.writeBytes loadBase program).read b :=
  read_write16 _ _ _ _

/-! ### The statements -/

/-- Settles O5: the read-after-write law of the memory list, which holds of every list, canonical or not. -/
theorem byteWriteChangesExactlyItsCell : Obligations.ByteWriteChangesExactlyItsCell :=
  read_write

/-- Settles O10: the copy gives the program's cells, and the vector's two cells are split off before it. -/
theorem loadPlacesTheProgramAndTheVector : Obligations.LoadPlacesTheProgramAndTheVector := by
  intro m program addr hlen
  rw [read_load, read_writeBytes_loadBase m program addr hlen]
  by_cases hlo : addr = 0xFFFC
  · simp [hlo]
  · simp only [hlo, if_false]

end Sys2Proof.Machine
end

section
/-! SUPPORT. The resolver against the spec's table (40_addressing.md, under R70), and the statement on it. -/

namespace Sys2Proof.Machine

/-- Indirect_Y is the one row that reads the configuration (40_addressing.md R79, R80): index then pointer, or pointer then
index. -/
theorem eaIndirectY_eq_ite (op8 : Byte) (s : State) :
    eaIndirectY op8 s =
      if s.config.indyVariant = .preIndexed then Spec.pointer s.mem (op8 + s.y)
      else Spec.pointer s.mem op8 + s.y.setWidth 16 := by
  rw [eaIndirectY]
  cases s.config.indyVariant with
  | preIndexed => rfl
  | postIndexed => rfl

/-- The model's resolver is the spec's table, row by row: the operands are read low byte first with the wrap of
20_memory.md R33, and a pointer with the wrap of R35. -/
theorem resolve_eq_spec (mode : Mode) (s : State) : resolve mode s = Spec.resolve mode s := by
  cases mode
  case indirectY =>
    simp only [resolve, Spec.resolve, eaIndirectY_eq_ite, apply_ite some, State.operand8]
  all_goals rfl

/-- Settles O16: each row is the spec's table read at its mode. -/
theorem resolverFollowsTheModeTable : Obligations.ResolverFollowsTheModeTable := fun s =>
  ⟨resolve_eq_spec .immediate s, resolve_eq_spec .zeroPage s, resolve_eq_spec .zeroPageX s,
    resolve_eq_spec .zeroPageY s, resolve_eq_spec .absolute s, resolve_eq_spec .absoluteX s,
    resolve_eq_spec .absoluteY s, resolve_eq_spec .indirectX s, resolve_eq_spec .noneAddressing s⟩

end Sys2Proof.Machine
end

section
/-! SUPPORT. The bits of `P` after each flag helper and after `SetZN` (41_flags.md R90 to R93), and the statements on them. -/

namespace Sys2Proof.Machine

/-- The one shape of the flag helpers of 41_flags.md: clear bit `j` of `p`, then put the bit `c` there. -/
theorem getLsbD_clear_or_ite (p : Byte) (c : Bool) {j : Nat} (hj : j < 8) (k : Nat) :
    ((p &&& ~~~BitVec.twoPow 8 j) ||| (if c then BitVec.twoPow 8 j else 0)).getLsbD k =
      if k = j then c else p.getLsbD k := by
  by_cases hk : k = j
  · subst hk
    cases c <;> simp [hj]
  · have hbit : (BitVec.twoPow 8 j).getLsbD k = false := by simp [Ne.symm hk]
    have hput : (if c then BitVec.twoPow 8 j else 0).getLsbD k = false := by cases c <;> simp [hbit]
    rw [BitVec.getLsbD_or, BitVec.getLsbD_and, BitVec.getLsbD_not, hbit, hput, if_neg hk]
    simpa using BitVec.lt_of_getLsbD

/-- Bit 1 alone is written (41_flags.md R90). -/
theorem getLsbD_updateZero (v p : Byte) (k : Nat) :
    (updateZero v p).getLsbD k = if k = 1 then decide (v = 0x00) else p.getLsbD k := by
  rw [← getLsbD_clear_or_ite p (decide (v = 0x00)) (by decide) k]
  simp only [decide_eq_true_eq]
  rfl

/-- Bit 7 alone is written (41_flags.md R91). -/
theorem getLsbD_updateNegative (v p : Byte) (k : Nat) :
    (updateNegative v p).getLsbD k = if k = 7 then v.getLsbD 7 else p.getLsbD k := by
  have hbit : v &&& 0x80 = if v.getLsbD 7 then BitVec.twoPow 8 7 else 0 := BitVec.and_twoPow v 7
  rw [← getLsbD_clear_or_ite p (v.getLsbD 7) (by decide) k, updateNegative, hbit]
  rfl

/-- The Zero flag after `SetZN(v)`, whose second helper leaves bit 1 alone. -/
@[simp] theorem flagZ_updateNegative_updateZero (v p : Byte) :
    flagZ (updateNegative v (updateZero v p)) = decide (v = 0x00) := by
  simp only [flagZ, getLsbD_updateNegative, getLsbD_updateZero, if_true, OfNat.one_ne_ofNat, if_false]

/-- The Negative flag after `SetZN(v)`. -/
@[simp] theorem flagN_updateNegative_updateZero (v p : Byte) :
    flagN (updateNegative v (updateZero v p)) = v.getLsbD 7 := by
  rw [flagN, getLsbD_updateNegative, if_pos rfl]

/-- The two helpers in turn are the closed formula of 41_flags.md R92: the second mask keeps what the first helper put at
bit 1. -/
theorem updateNegative_updateZero_eq_spec (v p : Byte) :
    updateNegative v (updateZero v p) = Spec.setZN p v := by
  have hkept : (if v = 0 then (0x02 : Byte) else 0x00) &&& 0x7F = if v = 0 then 0x02 else 0x00 := by
    split <;> rfl
  have hmasks : (0xFD : Byte) &&& 0x7F = 0x7D := rfl
  rw [updateNegative, updateZero, Spec.setZN, BitVec.and_or_distrib_right, hkept, BitVec.and_assoc, hmasks,
    BitVec.or_assoc, BitVec.or_comm (if v = 0 then (0x02 : Byte) else 0x00), ← BitVec.or_assoc]

/-- Settles O12: each helper clears its own bit and puts the flag there, which no other bit can tell. -/
theorem flagHelpersWriteOneBitEach : Obligations.FlagHelpersWriteOneBitEach := fun v p k _ =>
  ⟨getLsbD_updateZero v p k, getLsbD_updateNegative v p k⟩

/-- Settles O13: Z and N are not both 1 because the value zero has bit 7 clear. -/
theorem zeroAndNegativeAreIndependent : Obligations.ZeroAndNegativeAreIndependent := by
  intro v s
  refine ⟨?_, ?_, ?_, ?_, fun k hk1 hk7 => ?_⟩
  · rw [State.setZN, updateNegative_updateZero_eq_spec]
  · simp
  · simp
  · rintro ⟨hz, hn⟩
    obtain rfl : v = 0x00 := by simpa using hz
    simp at hn
  · rw [setZN_p, getLsbD_updateNegative, if_neg hk7, getLsbD_updateZero, if_neg hk1]

end Sys2Proof.Machine
end

section
/-! SUPPORT. Every step of a `Running` machine runs the descriptor of its opcode byte (45_control_fsm.md R161), whether that
is a row of T0 or not. -/

namespace Sys2Proof.Machine

/-- The operand word the handler sees is made of the two bytes after the opcode that decoding reads. -/
theorem operand16_fetched (s : State) :
    s.fetched.operand16 = word16 (s.mem.read (s.pc + 2)) (s.mem.read (s.pc + 1)) := by
  have hnext : s.pc + 1 + 1 = s.pc + 2 := BitVec.add_assoc s.pc 1 1
  rw [State.operand16, Memory.read16, fetched_pc, fetched_mem, hnext]

/-! ### The run of a descriptor, by cases of its handler -/

theorem runDescriptor_of_brk {d : Descriptor} (s : State) (h : d.mnemonic = .brk) :
    runDescriptor d s = s.fetched.raise .brk := by
  simp [runDescriptor, handler, h]

theorem runDescriptor_of_error {d : Descriptor} {s : State} (h : handler d.mnemonic d.mode s.fetched = none) :
    runDescriptor d s = s.fetched.raise .addrModeFault := by
  rw [runDescriptor, h]

theorem runDescriptor_of_handler {d : Descriptor} {s t : State} (hbrk : d.mnemonic ≠ .brk)
    (h : handler d.mnemonic d.mode s.fetched = some t) : runDescriptor d s = t.advance d.length := by
  simp [runDescriptor, h, hbrk]

/-! ### The step -/

/-- An instruction's meaning on the operands decoded at `pc` is the run of the descriptor it was decoded from. -/
theorem exec_eq_runDescriptor {d : Descriptor} {i : Instr} {s : State}
    (h : rowInstr d (s.mem.read (s.pc + 1)) (s.mem.read (s.pc + 2)) = some i) :
    exec i s = .next (runDescriptor d s) := by
  obtain ⟨code, mnemonic, length, cycles, mode⟩ := d
  rw [rowInstr] at h
  split at h
  next hlength =>
    obtain rfl : length = 1 + mode.operandBytes := hlength
    cases mnemonic
    case and | lda | sta =>
      cases mode <;>
        simp only [andForm, ldaForm, staForm, ← operand16_fetched, Option.some.injEq, reduceCtorEq] at h <;>
        (subst h; rfl)
    case asl | tax | inx | brk =>
      obtain ⟨rfl, hi⟩ : mode = .noneAddressing ∧ _ = i := by simpa using h
      subst hi
      rfl
  next => cases h

theorem step_of_halted {s : State} (h : s.fsm = .halted) : step s = .next s := by
  rw [step, h]

theorem step_of_lookup_none {s : State} (hs : Spec.Ready s) (h : s.config.opTable.lookup (s.mem.read s.pc) = none) :
    step s = .next (s.fetched.raise .illegalOpcode) := by
  obtain ⟨hf, hw⟩ := hs
  simp [step, hf, hw, State.fetchDecode, decodeAt, h]

/-- The step at a descriptor, under any well-formed table. -/
theorem step_of_at {s : State} {d : Descriptor} (hs : Spec.Ready s) (h : Spec.At d s) :
    step s = .next (runDescriptor d s) := by
  obtain ⟨hf, hw⟩ := hs
  cases hr : rowInstr d (s.mem.read (s.pc + 1)) (s.mem.read (s.pc + 2)) with
  | none => simp only [step, hf, hw, State.fetchDecode, decodeAt, h, hr, if_true]
  | some i => simp only [step, hf, hw, State.fetchDecode, decodeAt, h, hr, if_true, exec_eq_runDescriptor hr]

/-- `step_cases` with the two ways to run a descriptor as one. -/
theorem step_cases_by_descriptor {s t : State} (h : step s = .next t) :
    (s.fsm = .halted ∧ t = s) ∨
    (Spec.Ready s ∧ s.config.opTable.lookup (s.mem.read s.pc) = none ∧ t = s.fetched.raise .illegalOpcode) ∨
    (Spec.Ready s ∧ ∃ d, Spec.At d s ∧ t = runDescriptor d s) := by
  obtain hhalted | ⟨hf, hw, ⟨hl, ht⟩ | ⟨d, i, hd, hr, he⟩ | ⟨d, hd, -, ht⟩⟩ := step_cases h
  · exact .inl hhalted
  · exact .inr (.inl ⟨⟨hf, hw⟩, hl, ht⟩)
  · have ht : t = runDescriptor d s := by simpa [exec_eq_runDescriptor hr, eq_comm] using he
    exact .inr (.inr ⟨⟨hf, hw⟩, d, hd, ht⟩)
  · exact .inr (.inr ⟨⟨hf, hw⟩, d, hd, ht⟩)

end Sys2Proof.Machine
end

section
/-! SUPPORT. The flags influence nothing (41_flags.md R95): the run of a descriptor from the same state with another `P`, and
the statement on the step. -/

namespace Sys2Proof.Machine

/-- The state with another `P`. -/
def State.withP (p : Byte) (s : State) : State := { s with p := p }

/-- The Zero and the Negative flags of two status bytes are the same. -/
def SameZN (p q : Byte) : Prop := flagZ p = flagZ q ∧ flagN p = flagN q

/-- The mnemonics whose handlers end in `SetZN` under both variants (41_flags.md R93; a completed ASL A does too). -/
abbrev SetsZN (mn : Mnemonic) : Prop := mn ∈ [Mnemonic.and, .lda, .tax, .inx]

/-- `SetZN` forgets the Z and N it finds. -/
theorem sameZN_setZN (v : Byte) (s s' : State) : SameZN (s.setZN v).p (s'.setZN v).p := by
  simp [SameZN]

/-- No mode's address depends on `P`. -/
theorem resolve_withP (mode : Mode) (p : Byte) (s : State) : resolve mode (s.withP p) = resolve mode s := by
  cases mode <;> rfl

/-- In either variant the `P` that ASL A leaves is all that can differ. -/
theorem shiftA_withP (p : Byte) (s : State) : shiftA (s.withP p) = (shiftA s).withP (shiftA (s.withP p)).p := by
  cases h : s.config.aslVariant with
  | stub => rw [shiftA_stub s h, shiftA_stub (s.withP p) h]; rfl
  | complete => rw [shiftA_complete s h, shiftA_complete (s.withP p) h]; rfl

/-- A handler of a state with another `P` does the same but for `P`, and Z and N too where it sets them. -/
theorem handler_withP {mn : Mnemonic} {mode : Mode} {s t : State} (p : Byte) (h : handler mn mode s = some t) :
    ∃ r, handler mn mode (s.withP p) = some (t.withP r) ∧ (SetsZN mn → SameZN r t.p) := by
  obtain ⟨ea, rfl, hea, rfl⟩ | ⟨rfl, rfl⟩ | ⟨ea, rfl, hea, rfl⟩ | ⟨ea, rfl, hea, rfl⟩ | ⟨rfl, rfl⟩ | ⟨rfl, rfl⟩ |
    ⟨rfl, rfl⟩ := handler_cases h
  · exact ⟨(andAt ea (s.withP p)).p, by rw [handler, resolve_withP, hea]; rfl, fun _ => sameZN_setZN _ _ _⟩
  · exact ⟨(shiftA (s.withP p)).p, congrArg some (shiftA_withP p s), fun hset => absurd hset (by decide)⟩
  · exact ⟨(loadAt ea (s.withP p)).p, by rw [handler, resolve_withP, hea]; rfl, fun _ => sameZN_setZN _ _ _⟩
  · exact ⟨p, by rw [handler, resolve_withP, hea]; rfl, fun hset => absurd hset (by decide)⟩
  · exact ⟨(transferAX (s.withP p)).p, rfl, fun _ => sameZN_setZN _ _ _⟩
  · exact ⟨(incrementX (s.withP p)).p, rfl, fun _ => sameZN_setZN _ _ _⟩
  · exact ⟨p, rfl, fun hset => absurd hset (by decide)⟩

/-- Whether `Resolve` errs does not depend on `P`: the original `P` can be put back. -/
theorem handler_withP_eq_none {mn : Mnemonic} {mode : Mode} {s : State} (p : Byte) (h : handler mn mode s = none) :
    handler mn mode (s.withP p) = none := by
  cases hp : handler mn mode (s.withP p) with
  | none => rfl
  | some t =>
    obtain ⟨r, hback, -⟩ := handler_withP s.p hp
    cases h.symm.trans hback

/-- The run of a descriptor from another `P`. The condition on the mode leaves out a handler whose `Resolve` errs
(40_addressing.md R81): it sets no flag, so Z and N stay as different as they were. -/
theorem runDescriptor_withP (d : Descriptor) (p : Byte) (s : State) :
    ∃ r, runDescriptor d (s.withP p) = (runDescriptor d s).withP r ∧
      (SetsZN d.mnemonic → (d.mode = .noneAddressing → d.mnemonic ∈ [Mnemonic.tax, .inx]) →
        SameZN r (runDescriptor d s).p) := by
  have hfetched : (s.withP p).fetched = s.fetched.withP p := rfl
  by_cases hbrk : d.mnemonic = .brk
  · refine ⟨p, ?_, fun hset => ?_⟩
    · rw [runDescriptor_of_brk _ hbrk, runDescriptor_of_brk s hbrk]
      rfl
    · rw [hbrk] at hset
      exact absurd hset (by decide)
  cases h : handler d.mnemonic d.mode s.fetched with
  | none =>
    obtain ⟨hresolves, hmode⟩ := handler_eq_none h
    refine ⟨p, ?_, fun _ hexec => ?_⟩
    · rw [runDescriptor_of_error (hfetched ▸ handler_withP_eq_none p h), runDescriptor_of_error h]
      rfl
    · have hdisjoint : ∀ mn ∈ [Mnemonic.and, .lda, .sta], mn ∉ [Mnemonic.tax, .inx] := by decide
      exact absurd (hexec hmode) (hdisjoint _ hresolves)
  | some t =>
    obtain ⟨r, hr, hflags⟩ := handler_withP p h
    rw [runDescriptor_of_handler hbrk (hfetched ▸ hr), runDescriptor_of_handler hbrk h]
    exact ⟨r, rfl, fun hset _ => hflags hset⟩

/-- Settles O47: which descriptor a step runs does not depend on `P`, and the run of a descriptor keeps the states equal but
for `P`. -/
theorem flagsInfluenceNothing : Obligations.FlagsInfluenceNothing := by
  intro s t q h
  obtain ⟨hf, rfl⟩ | ⟨hs, hl, rfl⟩ | ⟨hs, d, hd, rfl⟩ := step_cases_by_descriptor h
  · refine ⟨q, step_of_halted hf, fun hrunning => ?_⟩
    cases hf.symm.trans hrunning
  · refine ⟨q, step_of_lookup_none hs hl, fun _ d hd => ?_⟩
    cases hl.symm.trans hd
  · obtain ⟨r, hr, hflags⟩ := runDescriptor_withP d q s
    refine ⟨r, (step_of_at (s := s.withP q) hs hd).trans (congrArg _ hr), fun _ d' hd' => ?_⟩
    obtain rfl : d = d' := Option.some.inj (hd.symm.trans hd')
    exact hflags

end Sys2Proof.Machine
end

section
/-! SUPPORT. The step of an LDA whose mode resolves (43_load_store.md R120), and the statement on the two forms whose codes
the source attests. -/

namespace Sys2Proof.Machine

/-- The fetch increment and the advance by `length - 1` add up to the length, since no length is zero
(45_control_fsm.md R162, R166). -/
theorem pc_fetch_then_advance (pc : Addr) {n : Nat} (h : 1 ≤ n) :
    pc + 1 + BitVec.ofNat 16 (n - 1) = pc + BitVec.ofNat 16 n := by
  obtain ⟨k, rfl⟩ := Nat.exists_eq_add_of_le h
  rw [Nat.add_sub_cancel_left, BitVec.ofNat_add, BitVec.add_assoc]
  rfl

/-- The whole of an LDA from the step boundary (43_load_store.md R120). -/
theorem loadAt_fetched_advance (ea : Addr) (s : State) {n : Nat} (h : 1 ≤ n) :
    (loadAt ea s.fetched).advance n = Spec.afterLda (s.mem.read ea) n s := by
  rw [Spec.afterLda, ← pc_fetch_then_advance s.pc h, ← updateNegative_updateZero_eq_spec]
  rfl

/-- The step of an LDA whose mode resolves, under any well-formed table. -/
theorem step_of_lda {s : State} {d : Descriptor} {ea : Addr} (hs : Spec.Ready s) (hd : Spec.At d s)
    (hlda : d.mnemonic = .lda) (hea : resolve d.mode s.fetched = some ea) :
    step s = .next (Spec.afterLda (s.mem.read ea) d.length s) := by
  have hlength : 1 ≤ d.length := (OpTable.lookup_length hs.2 hd).1
  have hhandler : handler d.mnemonic d.mode s.fetched = some (loadAt ea s.fetched) := by
    rw [hlda, handler, hea, Option.map_some]
  have hbrk : d.mnemonic ≠ .brk := by simp [hlda]
  rw [step_of_at hs hd, runDescriptor_of_handler hbrk hhandler, loadAt_fetched_advance ea s hlength]

/-- A `Running` machine under T0 is ready to step, T0 being well formed. -/
theorem ready_of_t0 {s : State} (hf : s.fsm = .running) (ht : s.config.opTable = t0) : Spec.Ready s :=
  ⟨hf, by rw [Config.wf, ht]; rfl⟩

/-- The descriptor at `pc` under T0, from the opcode byte there. -/
theorem at_of_t0 {s : State} {b : Byte} {d : Descriptor} (ht : s.config.opTable = t0) (hb : s.mem.read s.pc = b)
    (hd : t0.lookup b = some d) : Spec.At d s := by
  rw [Spec.At, ht, hb, hd]

/-- Settles O29: T0's rows of the two codes are LDA, and their modes resolve to the operand's own address and to the
zero-page address it names. -/
theorem ldaImmediateAndZeroPageStep : Obligations.LdaImmediateAndZeroPageStep := by
  intro s hf ht
  have hs : Spec.Ready s := ready_of_t0 hf ht
  constructor
  · intro hb
    have hd : Spec.At ⟨0xA9, .lda, 2, 2, .immediate⟩ s := at_of_t0 ht hb rfl
    exact step_of_lda hs hd rfl rfl
  · intro hb
    have hd : Spec.At ⟨0xA5, .lda, 2, 3, .zeroPage⟩ s := at_of_t0 ht hb rfl
    exact step_of_lda hs hd rfl rfl

end Sys2Proof.Machine
end

section
/-! SUPPORT. The two instructions that write X (44_register_ops.md), and the statements on them. -/

namespace Sys2Proof.Machine

/-- A one-byte instruction that puts `v` in X and in Z and N, from the step boundary: the shape TAX and INX share
(44_register_ops.md R150, R151). -/
theorem writeX_fetched_advance (v : Byte) (s : State) :
    (State.setZN v { s.fetched with x := v }).advance 1 =
      { s with x := v, p := Spec.setZN s.p v, pc := s.pc + 1 } := by
  have hpc : s.pc + 1 + BitVec.ofNat 16 (1 - 1) = s.pc + 1 := pc_fetch_then_advance s.pc le_rfl
  rw [State.setZN, State.advance, updateNegative_updateZero_eq_spec, fetched_pc, hpc]
  rfl

/-- The whole of TAX from the step boundary (44_register_ops.md R150). -/
theorem exec_tax (s : State) :
    exec .tax s = .next { s with x := s.a, p := Spec.setZN s.p s.a, pc := s.pc + 1 } :=
  congrArg Host.Outcome.next (writeX_fetched_advance s.a s)

/-- The whole of INX from the step boundary (44_register_ops.md R151). -/
theorem exec_inx (s : State) :
    exec .inx s = .next { s with x := s.x + 1, p := Spec.setZN s.p (s.x + 1), pc := s.pc + 1 } :=
  congrArg Host.Outcome.next (writeX_fetched_advance (s.x + 1) s)

/-- Settles O31: the handler writes A's value to X, and the fetch increment is the whole move of `pc`. -/
theorem taxCopiesAToX : Obligations.TaxCopiesAToX := ⟨rfl, exec_tax⟩

/-- Settles O32: INX is `SetZN` of the incremented X, so Z, N and the other bits of `P` are as `SetZN` leaves them. -/
theorem inxIncrementsXModulo256 : Obligations.InxIncrementsXModulo256 := by
  refine ⟨rfl, fun s => ⟨_, exec_inx s, BitVec.toNat_add s.x 1, ?_⟩⟩
  obtain ⟨hset, hz, hn, -, hkept⟩ := zeroAndNegativeAreIndependent (s.x + 1) s
  rw [hset] at hz hn hkept
  exact ⟨hz, hn, hkept, rfl⟩

end Sys2Proof.Machine
end

section
/-! SUPPORT. A host operation on a `Halted` machine, and the statement on a second `Reset` (70_reset_and_hazards.md R212). -/

namespace Sys2Proof.Machine

theorem hostStep_of_halted (op : HostOp) {s : State} (h : s.fsm = .halted) : hostStep op s = .next (op.apply s) := by
  rw [hostStep, h]

/-- `Reset` reads only memory, to fetch the vector, and leaves memory as it is (R211). -/
@[simp] theorem applyReset_applyReset (s : State) : s.applyReset.applyReset = s.applyReset := rfl

/-- Settles O4: `Reset` leaves the machine `Halted`, so it is enabled again, and the second one writes what the first did. -/
theorem hostResetIsIdempotent : Obligations.HostResetIsIdempotent := by
  intro s t h
  obtain ⟨hhalted, rfl⟩ := hostStep_cases h
  have henabled : s.applyReset.fsm = .halted := by rw [applyReset_fsm, hhalted]
  calc hostStep .reset s.applyReset
    _ = .next s.applyReset.applyReset := hostStep_of_halted .reset henabled
    _ = .next s.applyReset := by rw [applyReset_applyReset]

end Sys2Proof.Machine
end

section
/-! SUPPORT. The two bytes of a word and the two 16-bit reads (20_memory.md section 3), and the statements on them. -/

namespace Sys2Proof.Machine

/-! ### A word and its two bytes -/

@[simp] theorem word16_hiByte_loByte (w : Addr) : word16 (hiByte w) (loByte w) = w := by
  calc word16 (hiByte w) (loByte w)
    _ = w.extractLsb' 0 16 := BitVec.extractLsb'_append_extractLsb'_eq_extractLsb' rfl
    _ = w := BitVec.extractLsb'_eq_self

@[simp] theorem loByte_word16 (hi lo : Byte) : loByte (word16 hi lo) = lo :=
  BitVec.extractLsb'_append_eq_right

@[simp] theorem hiByte_word16 (hi lo : Byte) : hiByte (word16 hi lo) = hi :=
  BitVec.extractLsb'_append_eq_left

/-- Below the last byte of the zero page, the next zero-page address is the next address. -/
theorem zext16_add_one {p : Byte} (h : p ≠ 0xFF) : zext16 (p + 1) = zext16 p + 1 := by
  rw [zext16, zext16]
  bv_omega

theorem add_one_ne_self (addr : Addr) : addr ≠ addr + 1 := by
  bv_omega

/-! ### The statements on 16-bit accesses -/

/-- Settles O6: the read is by definition the two byte reads, and the write is the two byte writes in turn. -/
theorem wordAccessIsTwoBytesLowFirst : Obligations.WordAccessIsTwoBytesLowFirst :=
  ⟨fun _ _ => rfl, read_write16⟩

/-- Settles O7: the two cells hold the word's two bytes, since the two addresses differ even at 0xFFFF. -/
theorem wordWrittenReadsBack : Obligations.WordWrittenReadsBack := by
  intro m addr v
  have hhi : (m.write16 addr v).read (addr + 1) = hiByte v := by rw [read_write16, if_pos rfl]
  have hlo : (m.write16 addr v).read addr = loByte v := by
    rw [read_write16, if_neg (add_one_ne_self addr), if_pos rfl]
  rw [Memory.read16, hhi, hlo, word16_hiByte_loByte]

/-- Settles O8: below 0xFF the two reads name the same cells; at 0xFF a byte at 0x0100 tells them apart. -/
theorem zeroPageWordReadWrapsInsideThePage : Obligations.ZeroPageWordReadWrapsInsideThePage := by
  refine ⟨fun _ _ => rfl, fun p => ⟨fun ⟨m, _, hdiffers⟩ => ?_, ?_⟩⟩
  · by_contra hp
    exact hdiffers (by rw [Memory.zpRead16, zext16_add_one hp]; rfl)
  · rintro rfl
    exact ⟨[(0x100, 1)], by decide, by decide⟩

end Sys2Proof.Machine
end

section
/-! SUPPORT. A canonical memory is determined by what its cells read (20_memory.md R30). -/

namespace Sys2Proof.Machine

/-- What the canonical form says of its first entry and of the rest. -/
theorem Memory.wfFrom_cons {lo k : Nat} {b : Byte} {rest : Memory} :
    Memory.wfFrom lo ((k, b) :: rest) = true ↔
      lo ≤ k ∧ k < 65536 ∧ b ≠ unlisted ∧ Memory.wfFrom (k + 1) rest = true := by
  simp [Memory.wfFrom, unlisted, and_assoc]

theorem readAt_of_lt {lo n : Nat} (hn : n < lo) :
    ∀ {m : Memory}, Memory.wfFrom lo m = true → m.readAt n = unlisted
  | [], _ => rfl
  | (k, b) :: rest, hm => by
    obtain ⟨hk, -⟩ := Memory.wfFrom_cons.1 hm
    rw [Memory.readAt, if_pos (by omega)]

theorem readAt_head (k : Nat) (b : Byte) (rest : Memory) : Memory.readAt ((k, b) :: rest) k = b := by
  simp [Memory.readAt]

theorem readAt_tail {k n : Nat} (b : Byte) (rest : Memory) (h : k < n) :
    Memory.readAt ((k, b) :: rest) n = rest.readAt n := by
  rw [Memory.readAt, if_neg (by omega), if_neg (by omega)]

/-- Of two canonical memories that read alike, neither starts at a lower address: its first cell would not be 0x00. -/
theorem not_readAt_eq_of_lt {lo k : Nat} {b : Byte} {rest m : Memory} (hk : k < lo)
    (hm : Memory.wfFrom k ((k, b) :: rest) = true) (hm' : Memory.wfFrom lo m = true) :
    Memory.readAt ((k, b) :: rest) k ≠ m.readAt k := by
  obtain ⟨-, -, hb, -⟩ := Memory.wfFrom_cons.1 hm
  rwa [readAt_head, readAt_of_lt hk hm']

theorem Memory.wfFrom_own {lo k : Nat} {b : Byte} {rest : Memory} (h : Memory.wfFrom lo ((k, b) :: rest) = true) :
    Memory.wfFrom k ((k, b) :: rest) = true := by
  obtain ⟨-, hrest⟩ := Memory.wfFrom_cons.1 h
  exact Memory.wfFrom_cons.2 ⟨le_rfl, hrest⟩

theorem Memory.eq_of_readAt_eq {lo : Nat} :
    ∀ {m m' : Memory}, Memory.wfFrom lo m = true → Memory.wfFrom lo m' = true →
      (∀ n < 65536, m.readAt n = m'.readAt n) → m = m'
  | [], [], _, _, _ => rfl
  | (k, b) :: rest, [], hm, _, halike => by
    obtain ⟨-, hk, hb, -⟩ := Memory.wfFrom_cons.1 hm
    exact absurd ((readAt_head k b rest).symm.trans (halike k hk)) hb
  | [], (k, b) :: rest, _, hm', halike => by
    obtain ⟨-, hk, hb, -⟩ := Memory.wfFrom_cons.1 hm'
    exact absurd ((readAt_head k b rest).symm.trans (halike k hk).symm) hb
  | (k, b) :: rest, (k', b') :: rest', hm, hm', halike => by
    obtain ⟨-, hk, -, hrest⟩ := Memory.wfFrom_cons.1 hm
    obtain ⟨-, hk', -, hrest'⟩ := Memory.wfFrom_cons.1 hm'
    rcases Nat.lt_trichotomy k k' with hlt | rfl | hlt
    · exact absurd (halike k hk) (not_readAt_eq_of_lt hlt (Memory.wfFrom_own hm) (Memory.wfFrom_own hm'))
    · have hb : b = b' := by simpa only [readAt_head] using halike k hk
      have hrests : rest = rest' := Memory.eq_of_readAt_eq hrest hrest' fun n hn => by
        rcases Nat.lt_or_ge k n with hkn | hnk
        · simpa only [readAt_tail _ _ hkn] using halike n hn
        · rw [readAt_of_lt (by omega) hrest, readAt_of_lt (by omega) hrest']
      rw [hb, hrests]
    · exact absurd (halike k' hk').symm (not_readAt_eq_of_lt hlt (Memory.wfFrom_own hm') (Memory.wfFrom_own hm))

/-- Settles O9: an induction on both lists; where they differ first, one of them lists a cell that the other reads as 0x00. -/
theorem canonicalMemoriesThatReadAlikeAreEqual : Obligations.CanonicalMemoriesThatReadAlikeAreEqual := by
  intro m m' hm hm' halike
  refine Memory.eq_of_readAt_eq hm hm' fun n hn => ?_
  have haddr : (BitVec.ofNat 16 n).toNat = n := by rw [BitVec.toNat_ofNat, Nat.mod_eq_of_lt hn]
  simpa only [Memory.read, haddr] using halike (BitVec.ofNat 16 n)

end Sys2Proof.Machine
end

section
/-! SUPPORT. Decoding against encoding (30_encoding.md R50 to R56): the row a descriptor's operand bytes stand for, the codes
of a table, and the statements on both directions. -/

namespace Sys2Proof

open Machine (loByte_word16 hiByte_word16)

/-! ### An instruction and its row -/

theorem Descriptor.isRowOf_iff {d : Descriptor} {i : Instr} :
    d.isRowOf i = true ↔ d.mnemonic = i.mnemonic ∧ d.mode = i.mode ∧ d.length = i.length := by
  simp [Descriptor.isRowOf, and_assoc]

/-- The row of an instruction gives the instruction back from its operand bytes, whatever follows them (R51, R53). -/
theorem rowInstr_operands {d : Descriptor} {i : Instr} (h : d.isRowOf i = true) (rest : List Byte) :
    rowInstr d ((i.operands ++ rest).getD 0 0) ((i.operands ++ rest).getD 1 0) = some i := by
  obtain ⟨hmnemonic, hmode, hlength⟩ := Descriptor.isRowOf_iff.1 h
  cases i <;> simp [rowInstr, hmnemonic, hmode, hlength, Instr.mnemonic, Instr.mode, Instr.length, Instr.operands,
    Mode.operandBytes, andForm, ldaForm, staForm]

/-- The operand bytes of a decoded instruction are the bytes it was decoded from (R51, R53). -/
theorem operands_of_rowInstr {d : Descriptor} {b1 b2 : Byte} {i : Instr} (h : rowInstr d b1 b2 = some i) :
    i.operands = [b1, b2].take (i.length - 1) := by
  obtain ⟨hmnemonic, hmode, hlength⟩ := Descriptor.isRowOf_iff.1 (rowInstr_isRowOf h)
  cases i <;> simp_all [rowInstr, Instr.mnemonic, Instr.mode, Instr.length, Instr.operands,
    Mode.operandBytes, andForm, ldaForm, staForm]
  -- the forms with a two-byte operand remain
  all_goals
    subst h
    exact ⟨loByte_word16 b2 b1, hiByte_word16 b2 b1⟩

/-! ### Decoding a byte sequence -/

/-- A sequence decodes to an instruction when its first three bytes do and the operand bytes are all there. -/
theorem decodeIn_cons_eq_ok {t : OpTable} {b0 : Byte} {bytes rest : List Byte} {i : Instr} :
    decodeIn t (b0 :: bytes) = .ok (i, rest) ↔
      decodeAt t b0 (bytes.getD 0 0) (bytes.getD 1 0) = .row i ∧ i.length ≤ bytes.length + 1 ∧
        bytes.drop (i.length - 1) = rest := by
  rw [decodeIn]
  cases hd : decodeAt t b0 (bytes.getD 0 0) (bytes.getD 1 0) with
  | illegal => simp
  | offRow d => simp
  | row j =>
    by_cases hshort : bytes.length + 1 < j.length
    · simp only [hshort, if_true, Decoded.row.injEq, reduceCtorEq, false_iff]
      rintro ⟨rfl, hlong, -⟩
      omega
    · simp only [hshort, if_false, Except.ok.injEq, Prod.mk.injEq, Decoded.row.injEq]
      constructor
      · rintro ⟨rfl, rfl⟩
        exact ⟨rfl, by omega, rfl⟩
      · rintro ⟨rfl, -, rfl⟩
        exact ⟨rfl, rfl⟩

theorem decodeAt_eq_row {t : OpTable} {b0 b1 b2 : Byte} {i : Instr} :
    decodeAt t b0 b1 b2 = .row i ↔ ∃ d, t.lookup b0 = some d ∧ rowInstr d b1 b2 = some i := by
  obtain ⟨hl, he⟩ | ⟨d, j, hl, hr, he⟩ | ⟨d, hl, hr, he⟩ := decodeAt_cases t b0 b1 b2
  · simp [he, hl]
  · simp [he, hl, hr]
  · simp [he, hl, hr]

/-! ### A table as a function -/

/-- In a table that rises strictly by code, a later descriptor has a later code, so a lookup passes over the earlier ones. -/
theorem OpTable.lookup_code_of_mem_wfFrom :
    ∀ {t : OpTable} {lo : Nat}, OpTable.wfFrom lo t = true → ∀ d ∈ t, t.lookup d.code = some d
  | [], _, _, d, hd => by cases hd
  | e :: rest, lo, hw, d, hd => by
    simp only [OpTable.wfFrom, Bool.and_eq_true] at hw
    obtain ⟨-, hrest⟩ := hw
    rcases List.mem_cons.1 hd with rfl | hd
    · simp [OpTable.lookup]
    · have hlater : e.code.toNat + 1 ≤ d.code.toNat := OpTable.wfFrom_code_le rest _ hrest d hd
      have hne : e.code ≠ d.code := fun heq => by rw [heq] at hlater; omega
      have hfound : OpTable.lookup rest d.code = some d := OpTable.lookup_code_of_mem_wfFrom hrest d hd
      rwa [OpTable.lookup, List.find?_cons_of_neg (by simpa using hne)]

/-- Settles O24: codes rise strictly, so no two descriptors share one. -/
theorem wellFormedTableIsAFunction : Obligations.WellFormedTableIsAFunction := fun _ hw =>
  ⟨OpTable.lookup_code_of_mem_wfFrom hw, fun _ _ h => ⟨OpTable.lookup_mem h, OpTable.lookup_code h⟩⟩

/-! ### Both directions -/

/-- A table with a row for the instruction encodes it under the code of such a row. -/
theorem encodeIn_of_wfIn {t : OpTable} {i : Instr} (h : i.wfIn t = true) :
    ∃ d ∈ t, d.isRowOf i = true ∧ encodeIn t i = some (d.code :: i.operands) := by
  obtain ⟨e, he, hany⟩ := List.any_eq_true.1 h
  have hfound : (t.find? fun d => d.isRowOf i).isSome = true := List.find?_isSome.2 ⟨e, he, hany⟩
  obtain ⟨d, hd⟩ := Option.isSome_iff_exists.1 hfound
  have hrow : d.isRowOf i = true := by simpa using List.find?_some hd
  exact ⟨d, List.mem_of_find?_eq_some hd, hrow, by rw [encodeIn, hd]; rfl⟩

/-- Settles O21: the encoder takes the code of a row of the instruction, that code looks up the very row, and the row gives
the instruction back from its operand bytes. -/
theorem decodeOfEncodeUnderEveryTable : Obligations.DecodeOfEncodeUnderEveryTable := by
  intro t i rest hw hi
  obtain ⟨d, hmem, hrow, hencode⟩ := encodeIn_of_wfIn hi
  have hlookup : t.lookup d.code = some d := OpTable.lookup_code_of_mem_wfFrom hw d hmem
  have hlength : i.operands.length + 1 = i.length := i.operands_length
  refine ⟨d.code :: i.operands, hencode, hlength, ?_⟩
  rw [List.cons_append]
  refine decodeIn_cons_eq_ok.2 ⟨decodeAt_eq_row.2 ⟨d, hlookup, rowInstr_operands hrow rest⟩, ?_, ?_⟩
  · rw [List.length_append]
    omega
  · rw [← hlength, Nat.add_sub_cancel, List.drop_left]

/-- Each row of T0 stands for an instruction whose opcode is the row's code (R55). -/
theorem opcode_of_mem_t0 {d : Descriptor} (hd : d ∈ t0) {b1 b2 : Byte} {i : Instr} (h : rowInstr d b1 b2 = some i) :
    i.opcode = d.code := by
  have hrows : t0.all (fun e => (rowInstr e b1 b2).map Instr.opcode = some e.code) = true := rfl
  simpa [h] using List.all_eq_true.1 hrows d hd

/-- The first two of some bytes, and what follows the operands, are the bytes. -/
theorem take_getD_append_drop {bytes : List Byte} {n : Nat} (hn : n ≤ 2) (hlength : n ≤ bytes.length) :
    [bytes.getD 0 0, bytes.getD 1 0].take n ++ bytes.drop n = bytes := by
  match n, bytes, hn, hlength with
  | 0, _, _, _ => rfl
  | 1, _ :: _, _, _ => rfl
  | 2, _ :: _ :: _, _, _ => rfl

/-- Settles O22: the opcode byte is the code of the row it looks up, and the operand bytes are those after it. -/
theorem encodeOfDecodeUnderT0 : Obligations.EncodeOfDecodeUnderT0 := by
  intro bytes rest i h
  cases bytes with
  | nil => cases h
  | cons b0 bytes =>
    obtain ⟨hat, hlong, rfl⟩ := decodeIn_cons_eq_ok.1 h
    obtain ⟨d, hlookup, hrow⟩ := decodeAt_eq_row.1 hat
    have hopcode : i.opcode = b0 := by
      rw [opcode_of_mem_t0 (OpTable.lookup_mem hlookup) hrow, OpTable.lookup_code hlookup]
    obtain ⟨-, hthree⟩ := i.length_bounds
    have hoperands : i.operands ++ bytes.drop (i.length - 1) = bytes := by
      rw [operands_of_rowInstr hrow, take_getD_append_drop (by omega) (by omega)]
    rw [encode, hopcode, List.cons_append, hoperands]

/-- Settles O23: instruction by instruction, the first row of T0 with its mnemonic, mode and length has its opcode. -/
theorem tableEncoderOfT0UsesTheRowsOpcodes : Obligations.TableEncoderOfT0UsesTheRowsOpcodes := by
  intro i
  cases i <;> exact ⟨rfl, rfl⟩

/-- Settles O20: each word's decoding computes. -/
theorem sampleWordsDecodeAsTheTableSays : Obligations.SampleWordsDecodeAsTheTableSays :=
  ⟨rfl, rfl, rfl, rfl, rfl, rfl, rfl, rfl, rfl, rfl⟩

end Sys2Proof
end

section
/-! SUPPORT. The illegal opcodes of T0 (30_encoding.md R57), and the statements on an opcode absent from the table. -/

namespace Sys2Proof.Machine

/-- The 256 opcode bytes by their two hexadecimal digits: T0 has no row for exactly the listed ones. -/
theorem t0_lookup_isNone_iff_listed :
    ∀ hi < 16, ∀ lo < 16, (t0.lookup (BitVec.ofNat 8 (16 * hi + lo))).isNone = true ↔
      ∃ r ∈ Spec.illegalRanges, r.1 ≤ 16 * hi + lo ∧ 16 * hi + lo ≤ r.2 := by
  decide

/-- A count over `m * k` numbers, one block of `m` at a time. -/
theorem length_filter_range_mul (q : Nat → Bool) (m : Nat) :
    ∀ k, ((List.range (m * k)).filter q).length =
      ((List.range k).map fun hi => ((List.range m).filter fun lo => q (m * hi + lo)).length).sum
  | 0 => rfl
  | k + 1 => by
    rw [Nat.mul_succ, List.range_add, List.filter_append, List.length_append, length_filter_range_mul q m k,
      List.filter_map, List.length_map, List.range_succ, List.map_append, List.sum_append, List.map_singleton,
      List.sum_singleton]
    rfl

theorem t0_illegal_count :
    ((List.range 256).filter (fun n => (t0.lookup (BitVec.ofNat 8 n)).isNone)).length = 229 :=
  (length_filter_range_mul _ 16 16).trans (by decide)

/-- Settles O25: the table's rows and the listed ranges part the 256 bytes; the step is the one at an absent opcode. -/
theorem illegalOpcodesOfT0EndTheRun : Obligations.IllegalOpcodesOfT0EndTheRun := by
  refine ⟨fun b => ?_, t0_illegal_count, fun s hs hl => step_of_lookup_none hs hl⟩
  have hdigits := t0_lookup_isNone_iff_listed (b.toNat / 16) (by omega) (b.toNat % 16) (by omega)
  rwa [Nat.div_add_mod, BitVec.ofNat_toNat, BitVec.setWidth_eq, Option.isNone_iff_eq_none] at hdigits

/-- Settles O39: the same step, as the state it leaves. -/
theorem unknownOpcodeHaltsOnePastTheByte : Obligations.UnknownOpcodeHaltsOnePastTheByte := fun _ hs hl =>
  step_of_lookup_none hs hl

end Sys2Proof.Machine
end

section
/-! SUPPORT. What a step of a `Running` machine can do, and what a handler leaves alone: the inversion that the statements on
every step rest on. -/

namespace Sys2Proof.Machine

/-! ### What a handler leaves alone and what it may write -/

/-- No handler writes `Y`, `pc`, `fsm`, `halt_cause` or the configuration. -/
theorem handler_frame {mn : Mnemonic} {mode : Mode} {s t : State} (h : handler mn mode s = some t) :
    t.y = s.y ∧ t.pc = s.pc ∧ t.fsm = s.fsm ∧ t.haltCause = s.haltCause ∧ t.config = s.config := by
  obtain ⟨ea, -, -, rfl⟩ | ⟨-, rfl⟩ | ⟨ea, -, -, rfl⟩ | ⟨ea, -, -, rfl⟩ | ⟨-, rfl⟩ | ⟨-, rfl⟩ | ⟨-, rfl⟩ :=
    handler_cases h
  all_goals simp

/-- The only handler that writes memory is STA's (20_memory.md R40). -/
theorem handler_mem {mn : Mnemonic} {mode : Mode} {s t : State} (h : handler mn mode s = some t) :
    t.mem = s.mem ∨ ∃ ea, mn = .sta ∧ resolve mode s = some ea ∧ t.mem = s.mem.write ea s.a := by
  obtain ⟨ea, -, -, rfl⟩ | ⟨-, rfl⟩ | ⟨ea, -, -, rfl⟩ | ⟨ea, hsta, hea, rfl⟩ | ⟨-, rfl⟩ | ⟨-, rfl⟩ | ⟨-, rfl⟩ :=
    handler_cases h
  · exact .inl rfl
  · exact .inl (shiftA_mem s)
  · exact .inl rfl
  · exact .inr ⟨ea, hsta, hea, rfl⟩
  · exact .inl rfl
  · exact .inl rfl
  · exact .inl rfl

/-- Everything ASL A can do. -/
theorem shiftA_cases (s : State) :
    shiftA s = s ∨ s.config.aslVariant = .complete ∧
      shiftA s = State.setZN (s.a <<< 1) { s with a := s.a <<< 1, p := updateCarry (s.a.getLsbD 7) s.p } := by
  cases h : s.config.aslVariant with
  | stub => exact .inl (shiftA_stub s h)
  | complete => exact .inr ⟨rfl, shiftA_complete s h⟩

/-- `A` is written by LDA and by a completed ASL A only. -/
theorem handler_a {mn : Mnemonic} {mode : Mode} {s t : State} (h : handler mn mode s = some t) :
    t.a = s.a ∨ mn = .lda ∨ mn = .asl ∧ s.config.aslVariant = .complete := by
  obtain ⟨ea, -, -, rfl⟩ | ⟨hasl, rfl⟩ | ⟨ea, hlda, -, rfl⟩ | ⟨ea, -, -, rfl⟩ | ⟨-, rfl⟩ | ⟨-, rfl⟩ | ⟨-, rfl⟩ :=
    handler_cases h
  · exact .inl rfl
  · obtain hsame | ⟨hcomplete, -⟩ := shiftA_cases s
    · exact .inl (by rw [hsame])
    · exact .inr (.inr ⟨hasl, hcomplete⟩)
  · exact .inr (.inl hlda)
  · exact .inl rfl
  · exact .inl rfl
  · exact .inl rfl
  · exact .inl rfl

/-- `X` is written by TAX and INX only. -/
theorem handler_x {mn : Mnemonic} {mode : Mode} {s t : State} (h : handler mn mode s = some t) :
    t.x = s.x ∨ mn ∈ [Mnemonic.tax, .inx] := by
  obtain ⟨ea, -, -, rfl⟩ | ⟨-, rfl⟩ | ⟨ea, -, -, rfl⟩ | ⟨ea, -, -, rfl⟩ | ⟨rfl, -⟩ | ⟨rfl, -⟩ | ⟨-, rfl⟩ :=
    handler_cases h
  · exact .inl rfl
  · exact .inl (shiftA_x s)
  · exact .inl rfl
  · exact .inl rfl
  · exact .inr (by decide)
  · exact .inr (by decide)
  · exact .inl rfl

/-- `P` is written by `SetZN` only, of `P` itself or, in a completed ASL A, of `P` with a new Carry. -/
theorem handler_p {mn : Mnemonic} {mode : Mode} {s t : State} (h : handler mn mode s = some t) :
    t.p = s.p ∨
    (∃ v, SetsZN mn ∧ t.p = updateNegative v (updateZero v s.p)) ∨
    (∃ v c, mn = .asl ∧ s.config.aslVariant = .complete ∧ t.p = updateNegative v (updateZero v (updateCarry c s.p))) := by
  obtain ⟨ea, rfl, -, rfl⟩ | ⟨hasl, rfl⟩ | ⟨ea, rfl, -, rfl⟩ | ⟨ea, -, -, rfl⟩ | ⟨rfl, rfl⟩ | ⟨rfl, rfl⟩ | ⟨-, rfl⟩ :=
    handler_cases h
  · exact .inr (.inl ⟨_, by decide, rfl⟩)
  · obtain hsame | ⟨hcomplete, hshift⟩ := shiftA_cases s
    · exact .inl (by rw [hsame])
    · exact .inr (.inr ⟨_, _, hasl, hcomplete, by rw [hshift]; rfl⟩)
  · exact .inr (.inl ⟨_, by decide, rfl⟩)
  · exact .inl rfl
  · exact .inr (.inl ⟨_, by decide, rfl⟩)
  · exact .inr (.inl ⟨_, by decide, rfl⟩)
  · exact .inl rfl

/-! ### The inversion -/

/-- Everything a step of a `Running` machine can do (45_control_fsm.md R161): one of the three terminal events, or a handler
and the advance. -/
theorem step_cases_of_ready {s t : State} (hs : Spec.Ready s) (h : step s = .next t) :
    (s.config.opTable.lookup (s.mem.read s.pc) = none ∧ t = Spec.ended .illegalOpcode s) ∨
    (∃ d, Spec.At d s ∧ d.mnemonic = .brk ∧ t = Spec.ended .brk s) ∨
    (∃ d, Spec.At d s ∧ d.mnemonic ∈ [Mnemonic.and, .lda, .sta] ∧ d.mode = .noneAddressing ∧
      t = Spec.ended .addrModeFault s) ∨
    (∃ d u, Spec.At d s ∧ d.mnemonic ≠ .brk ∧ handler d.mnemonic d.mode s.fetched = some u ∧
      t = u.advance d.length) := by
  obtain ⟨hf, -⟩ | ⟨-, hl, ht⟩ | ⟨-, d, hd, ht⟩ := step_cases_by_descriptor h
  · cases hf.symm.trans hs.1
  · exact .inl ⟨hl, ht⟩
  obtain ⟨hresolves, hmode, hrun⟩ | ⟨hbrk, hrun⟩ | ⟨hbrk, u, hu, hrun⟩ := runDescriptor_cases d s
  · exact .inr (.inr (.inl ⟨d, hd, hresolves, hmode, ht.trans hrun⟩))
  · exact .inr (.inl ⟨d, hd, hbrk, ht.trans hrun⟩)
  · exact .inr (.inr (.inr ⟨d, u, hd, hbrk, hu, ht.trans hrun⟩))

/-- `step_cases_of_ready` for proofs that need not tell the terminal events apart: nothing happened, the run ended, or a
handler ran. -/
theorem step_cases_by_outcome {s t : State} (h : step s = .next t) :
    (s.fsm = .halted ∧ t = s) ∨
    (s.fsm = .running ∧ ∃ cause, cause ≠ .none ∧ t = Spec.ended cause s) ∨
    (s.fsm = .running ∧ ∃ d u, Spec.At d s ∧ handler d.mnemonic d.mode s.fetched = some u ∧ t = u.advance d.length) := by
  obtain hhalted | ⟨hs, -⟩ | ⟨hs, -⟩ := step_cases_by_descriptor h
  · exact .inl hhalted
  all_goals
    obtain ⟨-, ht⟩ | ⟨d, -, -, ht⟩ | ⟨d, -, -, -, ht⟩ | ⟨d, u, hd, -, hu, ht⟩ := step_cases_of_ready hs h
    · exact .inr (.inl ⟨hs.1, _, by decide, ht⟩)
    · exact .inr (.inl ⟨hs.1, _, by decide, ht⟩)
    · exact .inr (.inl ⟨hs.1, _, by decide, ht⟩)
    · exact .inr (.inr ⟨hs.1, d, u, hd, hu, ht⟩)

end Sys2Proof.Machine
end

section
/-! SUPPORT. The invariants (10_state.md section 5, 41_flags.md R93): every step and every host operation keeps them, and every
reachable state meets them. -/

namespace Sys2Proof.Machine

/-! ### `Inv` -/

theorem inv_ended {s : State} (cause : HaltCause) (h : Inv s) : Inv (Spec.ended cause s) := by
  obtain ⟨hmem, hconfig, -⟩ := h
  exact ⟨hmem, hconfig, fun hrunning => nomatch hrunning⟩

theorem inv_of_handler {mn : Mnemonic} {mode : Mode} {s t : State} (hs : Inv s) (h : handler mn mode s = some t) :
    Inv t := by
  obtain ⟨hmem, hconfig, hcause⟩ := hs
  obtain ⟨-, -, hf, hc, hcfg⟩ := handler_frame h
  refine ⟨?_, by rwa [hcfg], by rwa [hf, hc]⟩
  obtain hsame | ⟨ea, -, -, hwrite⟩ := handler_mem h
  · rwa [hsame]
  · rw [hwrite]
    exact Memory.wf_write s.mem ea s.a hmem

/-- Settles O50: a terminal event writes neither memory nor the table and leaves the machine `Halted`; a handler writes at most
one cell, which keeps the canonical form, and neither `fsm` nor the cause. -/
theorem everyStepKeepsTheInvariant : Obligations.EveryStepKeepsTheInvariant := by
  intro s t hs h
  obtain ⟨-, rfl⟩ | ⟨-, cause, -, rfl⟩ | ⟨-, d, u, -, hu, rfl⟩ := step_cases_by_outcome h
  · exact hs
  · exact inv_ended cause hs
  · have hfetched : Inv s.fetched := hs
    have hhandled : Inv u := inv_of_handler hfetched hu
    exact hhandled

/-- A program over the limit is rejected (20_memory.md R37). -/
theorem beginRun_of_lt {program : List Byte} (s : State) (h : maxProgramLen < program.length) :
    s.beginRun program = s.raise .loadRejected :=
  if_pos h

/-- `Run` up to its loop (45_control_fsm.md R170). -/
theorem beginRun_of_le {program : List Byte} (s : State) (h : program.length ≤ maxProgramLen) :
    s.beginRun program =
      { State.applyReset { s with mem := s.mem.load program } with fsm := .running, haltCause := .none } :=
  if_neg (Nat.not_lt_of_le h)

theorem beginRun_cases (program : List Byte) (s : State) :
    s.beginRun program = s.raise .loadRejected ∨
    s.beginRun program =
      { State.applyReset { s with mem := s.mem.load program } with fsm := .running, haltCause := .none } :=
  (Nat.lt_or_ge maxProgramLen program.length).imp (beginRun_of_lt s) (beginRun_of_le s)

/-- Settles O51: each operation writes memory by the writes that keep its canonical form, and `Run` sets `fsm` and the cause
together. -/
theorem everyHostOperationKeepsTheInvariant : Obligations.EveryHostOperationKeepsTheInvariant := by
  rintro op s t ⟨hmem, hconfig, hcause⟩ h
  obtain ⟨-, rfl⟩ := hostStep_cases h
  cases op with
  | write addr v => exact ⟨Memory.wf_write s.mem addr v hmem, hconfig, hcause⟩
  | reset => exact ⟨hmem, hconfig, hcause⟩
  | run program =>
    obtain hbegin | hbegin := beginRun_cases program s <;> rw [HostOp.apply, hbegin]
    · exact ⟨hmem, hconfig, fun hrunning => nomatch hrunning⟩
    · exact ⟨Memory.wf_load s.mem program hmem, hconfig, fun _ => rfl⟩

/-! ### Which registers a step writes -/

theorem getLsbD_updateCarry (c : Bool) (p : Byte) (k : Nat) :
    (updateCarry c p).getLsbD k = if k = 0 then c else p.getLsbD k := by
  rw [← getLsbD_clear_or_ite p c (by decide) k]
  rfl

/-- Settles O14: the Carry helper clears bit 0 and puts the flag there. -/
theorem carryHelperWritesBitZeroOnly : Obligations.CarryHelperWritesBitZeroOnly := fun c p k _ =>
  getLsbD_updateCarry c p k

/-- No flag is a reserved bit: not Z, not N, and not Carry where there is one (10_state.md R13, R20). -/
theorem not_flag_of_reserved {v : AslVariant} {k : Nat} (h : (reservedBits v).getLsbD k = true) :
    k ≠ 1 ∧ k ≠ 7 ∧ (v = .complete → k ≠ 0) := by
  refine ⟨?_, ?_, ?_⟩
  · rintro rfl
    cases v <;> cases h
  · rintro rfl
    cases v <;> cases h
  · rintro rfl rfl
    cases h

/-- The reserved bits of `P` are as before any handler. -/
theorem handler_reserved {mn : Mnemonic} {mode : Mode} {s t : State} (h : handler mn mode s = some t) {k : Nat}
    (hk : (reservedBits s.config.aslVariant).getLsbD k = true) : t.p.getLsbD k = s.p.getLsbD k := by
  obtain ⟨hz, hn, hc⟩ := not_flag_of_reserved hk
  obtain hp | ⟨v, -, hp⟩ | ⟨v, c, -, hcomplete, hp⟩ := handler_p h
  · rw [hp]
  · rw [hp, getLsbD_updateNegative, if_neg hn, getLsbD_updateZero, if_neg hz]
  · rw [hp, getLsbD_updateNegative, if_neg hn, getLsbD_updateZero, if_neg hz, getLsbD_updateCarry,
      if_neg (hc hcomplete)]

/-- Settles O46: only a handler writes registers, and each handler's writes are known. -/
theorem eachRegisterIsWrittenOnlyByItsInstructions : Obligations.EachRegisterIsWrittenOnlyByItsInstructions := by
  intro s t h
  obtain ⟨-, rfl⟩ | ⟨-, cause, -, rfl⟩ | ⟨-, d, u, hd, hu, rfl⟩ := step_cases_by_outcome h
  · exact ⟨rfl, rfl, absurd rfl, absurd rfl, absurd rfl, fun _ _ => rfl⟩
  · exact ⟨rfl, rfl, absurd rfl, absurd rfl, absurd rfl, fun _ _ => rfl⟩
  obtain ⟨hy, -, -, -, hconfig⟩ := handler_frame hu
  refine ⟨hy, hconfig, fun ha => ?_, fun hx => ?_, fun hp => ?_, fun k hk => handler_reserved hu hk⟩
  · exact ⟨d, hd, (handler_a hu).resolve_left ha⟩
  · exact ⟨d, hd, (handler_x hu).resolve_left hx⟩
  · obtain ⟨-, hset, -⟩ | ⟨-, -, hasl, hcomplete, -⟩ := (handler_p hu).resolve_left hp
    · exact ⟨d, hd, .inl hset⟩
    · exact ⟨d, hd, .inr ⟨hasl, hcomplete⟩⟩

/-! ### `RegInv` -/

/-- Z and N are not both 1 (41_flags.md R93). -/
def ZNExclusive (p : Byte) : Prop := ¬(flagZ p = true ∧ flagN p = true)

theorem znExclusive_setZN (v p : Byte) : ZNExclusive (updateNegative v (updateZero v p)) := by
  obtain ⟨-, -, -, hexclusive, -⟩ := zeroAndNegativeAreIndependent v { State.reset with p := p }
  exact hexclusive

theorem znExclusive_zero : ZNExclusive 0 := fun ⟨hz, _⟩ => nomatch hz

theorem znExclusive_of_step {s t : State} (hs : ZNExclusive s.p) (h : step s = .next t) : ZNExclusive t.p := by
  obtain ⟨-, rfl⟩ | ⟨-, cause, -, rfl⟩ | ⟨-, d, u, -, hu, rfl⟩ := step_cases_by_outcome h
  · exact hs
  · exact hs
  rw [advance_p]
  obtain hp | ⟨v, -, hp⟩ | ⟨v, c, -, -, hp⟩ := handler_p hu <;> rw [hp]
  · exact hs
  · exact znExclusive_setZN v _
  · exact znExclusive_setZN v _

theorem hostStep_config {op : HostOp} {s t : State} (h : hostStep op s = .next t) : t.config = s.config := by
  obtain ⟨-, rfl⟩ := hostStep_cases h
  cases op with
  | write addr v => rfl
  | reset => rfl
  | run program => obtain hbegin | hbegin := beginRun_cases program s <;> rw [HostOp.apply, hbegin] <;> rfl

/-- A host operation leaves `Y` and, unless it clears it, `P` (70_reset_and_hazards.md R211). -/
theorem hostStep_y_p {op : HostOp} {s t : State} (h : hostStep op s = .next t) : t.y = s.y ∧ (t.p = s.p ∨ t.p = 0) := by
  obtain ⟨-, rfl⟩ := hostStep_cases h
  cases op with
  | write addr v => exact ⟨rfl, .inl rfl⟩
  | reset => exact ⟨rfl, .inr rfl⟩
  | run program =>
    obtain hbegin | hbegin := beginRun_cases program s <;> rw [HostOp.apply, hbegin]
    · exact ⟨rfl, .inl rfl⟩
    · exact ⟨rfl, .inr rfl⟩

/-- Settles O52: a step keeps `Y` and the reserved bits and writes Z and N by `SetZN` only; a host operation keeps `Y`, and
`P` or clears it. -/
theorem registerInvariantIsKept : Obligations.RegisterInvariantIsKept := by
  rintro s t ⟨hy, hreserved, hzn⟩ (h | ⟨op, h⟩)
  · obtain ⟨hty, hconfig, -, -, -, hkept⟩ := eachRegisterIsWrittenOnlyByItsInstructions s t h
    refine ⟨hty.trans hy, ?_, znExclusive_of_step hzn h⟩
    rw [hconfig, ← hreserved]
    refine BitVec.eq_of_getLsbD_eq fun k _ => ?_
    rw [BitVec.getLsbD_and, BitVec.getLsbD_and]
    cases hk : (reservedBits s.config.aslVariant).getLsbD k with
    | false => rw [Bool.and_false, Bool.and_false]
    | true => rw [hkept k hk]
  · obtain ⟨hty, hp⟩ := hostStep_y_p h
    have hconfig : t.config = s.config := hostStep_config h
    refine ⟨hty.trans hy, ?_⟩
    obtain hp | hp := hp <;> rw [hp]
    · rw [hconfig]
      exact ⟨hreserved, hzn⟩
    · exact ⟨BitVec.zero_and, znExclusive_zero⟩

/-! ### The reachable states -/

/-- Power-on meets both invariants under every well-formed table (70_reset_and_hazards.md R210). -/
theorem powerOn_inv {c : Config} (hc : c.wf = true) : Inv (State.powerOn c) ∧ RegInv (State.powerOn c) :=
  ⟨⟨rfl, hc, fun hrunning => nomatch hrunning⟩, rfl, BitVec.zero_and, znExclusive_zero⟩

/-- Settles O2: the reset state is power-on of the default configuration, whose table is T0. -/
theorem resetStateMeetsTheInvariants : Obligations.ResetStateMeetsTheInvariants := powerOn_inv rfl

/-- Settles O53: the induction over reachable states, with the invariants and the configuration together. -/
theorem reachableStatesMeetTheInvariants : Obligations.ReachableStatesMeetTheInvariants := by
  intro c s hc hs
  refine reachable_invariant (I := fun s => Inv s ∧ RegInv s ∧ s.config = c) ?_ ?_ ?_ hs
  · rintro s rfl
    obtain ⟨hinv, hreg⟩ := powerOn_inv hc
    exact ⟨hinv, hreg, rfl⟩
  · rintro op s t ⟨hinv, hreg, hconfig⟩ h
    exact ⟨everyHostOperationKeepsTheInvariant op s t hinv h, registerInvariantIsKept s t hreg (.inr ⟨op, h⟩),
      (hostStep_config h).trans hconfig⟩
  · rintro s t ⟨hinv, hreg, hconfig⟩ h
    obtain ⟨-, hkept, -⟩ := eachRegisterIsWrittenOnlyByItsInstructions s t h
    exact ⟨everyStepKeepsTheInvariant s t hinv h, registerInvariantIsKept s t hreg (.inl h), hkept.trans hconfig⟩

/-- A `Halted` machine has a cause (10_state.md section 5). -/
def HaltedHasCause (s : State) : Prop := s.fsm = .halted → s.haltCause ≠ .none

/-- `Run` either rejects the program, with a cause, or leaves `Halted`. -/
theorem haltedHasCause_beginRun (program : List Byte) (s : State) : HaltedHasCause (s.beginRun program) := by
  obtain hbegin | hbegin := beginRun_cases program s <;> rw [hbegin]
  · exact fun _ hnone => nomatch hnone
  · exact fun hhalted => nomatch hhalted

theorem haltedHasCause_of_hostStep {op : HostOp} {s t : State} (hs : HaltedHasCause s) (h : hostStep op s = .next t) :
    HaltedHasCause t := by
  obtain ⟨-, rfl⟩ := hostStep_cases h
  cases op with
  | write addr v => exact hs
  | reset => exact hs
  | run program => exact haltedHasCause_beginRun program s

theorem haltedHasCause_of_step {s t : State} (hs : HaltedHasCause s) (h : step s = .next t) : HaltedHasCause t := by
  obtain ⟨-, rfl⟩ | ⟨-, cause, hcause, rfl⟩ | ⟨hrunning, d, u, -, hu, rfl⟩ := step_cases_by_outcome h
  · exact hs
  · exact fun _ => hcause
  · obtain ⟨-, -, hf, -⟩ := handler_frame hu
    intro hhalted
    rw [advance_fsm, hf, fetched_fsm, hrunning] at hhalted
    cases hhalted

/-- Settles O54: a `Run` gives a cause or leaves `Halted`, and after it only a terminal event, with its cause, halts. -/
theorem haltedWithoutCauseOnlyBeforeTheFirstRun : Obligations.HaltedWithoutCauseOnlyBeforeTheFirstRun := by
  intro c s _ hs
  refine reachable_invariant (I := HaltedHasCause) ?_ (fun _ _ _ => haltedHasCause_of_hostStep)
    (fun _ _ => haltedHasCause_of_step) hs
  rintro t ⟨s, program, -, h⟩
  obtain ⟨-, rfl⟩ := hostStep_cases h
  exact haltedHasCause_beginRun program s

end Sys2Proof.Machine
end

section
/-! SUPPORT. Indirect_Y under each variant, the reach of the zero-page modes (40_addressing.md), and the statements on them. -/

namespace Sys2Proof.Machine

theorem eaIndirectY_of_preIndexed (op8 : Byte) {s : State} (h : s.config.indyVariant = .preIndexed) :
    eaIndirectY op8 s = Spec.pointer s.mem (op8 + s.y) := by
  rw [eaIndirectY_eq_ite, if_pos h]

theorem eaIndirectY_of_postIndexed (op8 : Byte) {s : State} (h : s.config.indyVariant = .postIndexed) :
    eaIndirectY op8 s = Spec.pointer s.mem op8 + s.y.setWidth 16 := by
  rw [eaIndirectY_eq_ite, if_neg (by simp [h])]

/-- With `Y` zero neither order of indexing changes anything (43_load_store.md R128). -/
theorem eaIndirectY_of_y_zero (op8 : Byte) {s : State} (h : s.y = 0x00) :
    eaIndirectY op8 s = Spec.pointer s.mem op8 := by
  cases hv : s.config.indyVariant with
  | preIndexed => rw [eaIndirectY_of_preIndexed op8 hv, h]; exact congrArg _ (BitVec.add_zero op8)
  | postIndexed => rw [eaIndirectY_of_postIndexed op8 hv, h]; exact BitVec.add_zero _

/-- Settles O17: the address under each variant, at the operand byte read at `pc`. -/
theorem indirectYFollowsItsVariant : Obligations.IndirectYFollowsItsVariant := fun s =>
  ⟨fun h => congrArg some (eaIndirectY_of_preIndexed s.operand8 h),
    fun h => congrArg some (eaIndirectY_of_postIndexed s.operand8 h)⟩

/-- Settles O19: both sides are the pointer at the operand, since the configuration does not reach the operand. -/
theorem indirectYVariantsAgreeWhenYIsZero : Obligations.IndirectYVariantsAgreeWhenYIsZero := by
  intro s v w hy
  have hvariant : ∀ u : IndyVariant,
      resolve .indirectY { s with config := { s.config with indyVariant := u } } =
        some (Spec.pointer s.mem s.operand8) :=
    fun u => congrArg some (eaIndirectY_of_y_zero s.operand8 hy)
  rw [hvariant v, hvariant w]

theorem zext16_toNat_lt (b : Byte) : (zext16 b).toNat < 256 := by
  rw [zext16, BitVec.toNat_setWidth_of_le (by decide)]
  exact b.isLt

/-- Settles O18: each of the three addresses is an 8-bit sum extended by zeros. -/
theorem zeroPageModesStayInTheZeroPage : Obligations.ZeroPageModesStayInTheZeroPage := by
  intro s mode ea hmode hea
  simp only [List.mem_cons, List.not_mem_nil, or_false] at hmode
  rcases hmode with rfl | rfl | rfl <;> cases hea <;> exact zext16_toNat_lt _

end Sys2Proof.Machine
end

section
/-! SUPPORT. The logical and shift unit (42_logical_shift.md R100), and each instruction from the step boundary: the fetch
increment, the handler and the advance as one state, and the statements per instruction. -/

namespace Sys2Proof.Machine

/-- Settles O15: `u <<< 1` is the product by two, and the other functions are by definition those of the bit vectors. -/
theorem unitFunctionsComputeModulo256 : Obligations.UnitFunctionsComputeModulo256 := by
  intro u v
  refine ⟨fun k => BitVec.getLsbD_and, rfl, BitVec.toNat_add u 1, ?_, rfl⟩
  rw [shl1, BitVec.toNat_shiftLeft, Nat.shiftLeft_eq]

/-! ### AND, LDA and STA from the step boundary -/

theorem andWith_fetched_advance (m : Byte) (s : State) {n : Nat} (h : 1 ≤ n) :
    (andWith m s.fetched).advance n = Spec.afterAnd m n s := by
  rw [Spec.afterAnd, ← pc_fetch_then_advance s.pc h, ← updateNegative_updateZero_eq_spec]
  rfl

theorem loadA_fetched_advance (m : Byte) (s : State) {n : Nat} (h : 1 ≤ n) :
    (loadA m s.fetched).advance n = Spec.afterLda m n s := by
  rw [Spec.afterLda, ← pc_fetch_then_advance s.pc h, ← updateNegative_updateZero_eq_spec]
  rfl

theorem storedAt_storeAt_fetched_advance (ea : Addr) (s : State) {n : Nat} (h : 1 ≤ n) :
    Spec.StoredAt ea n s ((storeAt ea s.fetched).advance n) := by
  refine ⟨fun b => read_write s.mem ea b s.a, ?_⟩
  rw [← pc_fetch_then_advance s.pc h]
  rfl

/-- An AND form: the byte at the address its mode gives at the fetched state (42_logical_shift.md R101). -/
theorem completes_andAt (ea : State → Addr) (s : State) {n : Nat} (h : 1 ≤ n) :
    completes n (fun t => andAt (ea t) t) s = .next (Spec.afterAnd (s.mem.read (ea s.fetched)) n s) :=
  congrArg Host.Outcome.next (andWith_fetched_advance (s.mem.read (ea s.fetched)) s h)

/-- An LDA form (43_load_store.md R120). -/
theorem completes_loadAt (ea : State → Addr) (s : State) {n : Nat} (h : 1 ≤ n) :
    completes n (fun t => loadAt (ea t) t) s = .next (Spec.afterLda (s.mem.read (ea s.fetched)) n s) :=
  congrArg Host.Outcome.next (loadA_fetched_advance (s.mem.read (ea s.fetched)) s h)

/-- An STA form (43_load_store.md R130). -/
theorem completes_storeAt (ea : State → Addr) (s : State) {n : Nat} (h : 1 ≤ n) :
    ∃ t, completes n (fun u => storeAt (ea u) u) s = .next t ∧ Spec.StoredAt (ea s.fetched) n s t :=
  ⟨_, rfl, storedAt_storeAt_fetched_advance (ea s.fetched) s h⟩

/-- Settles O26: each form's bytes compute, and its address at the fetched state is the one the statement writes out. -/
theorem andFormsSetFlagsAndKeepTheAccumulator : Obligations.AndFormsSetFlagsAndKeepTheAccumulator := by
  intro s op8 op16
  have hindirectY : exec (.andIndirectY op8) s = .next (Spec.afterAnd (s.mem.read (eaIndirectY op8 s)) 2 s) :=
    completes_andAt (eaIndirectY op8) s (by decide)
  refine ⟨⟨rfl, congrArg Host.Outcome.next (andWith_fetched_advance op8 s (by decide))⟩,
    ⟨rfl, completes_andAt (fun _ => eaZeroPage op8) s (by decide)⟩,
    ⟨rfl, completes_andAt (eaZeroPageX op8) s (by decide)⟩,
    ⟨rfl, completes_andAt (fun _ => eaAbsolute op16) s (by decide)⟩,
    ⟨rfl, completes_andAt (eaAbsoluteX op16) s (by decide)⟩,
    ⟨rfl, completes_andAt (eaAbsoluteY op16) s (by decide)⟩,
    ⟨rfl, completes_andAt (eaIndirectX op8) s (by decide)⟩,
    ⟨rfl, fun hpre => ?_, fun hpost => ?_⟩⟩
  · rw [hindirectY, eaIndirectY_of_preIndexed op8 hpre]
  · rw [hindirectY, eaIndirectY_of_postIndexed op8 hpost]

/-- Settles O28: as for AND, with the load's state. -/
theorem ldaFormsLoadTheAccumulator : Obligations.LdaFormsLoadTheAccumulator := by
  intro s op8 op16
  have hindirectY : exec (.ldaIndirectY op8) s = .next (Spec.afterLda (s.mem.read (eaIndirectY op8 s)) 2 s) :=
    completes_loadAt (eaIndirectY op8) s (by decide)
  refine ⟨⟨rfl, congrArg Host.Outcome.next (loadA_fetched_advance op8 s (by decide))⟩,
    ⟨rfl, completes_loadAt (fun _ => eaZeroPage op8) s (by decide)⟩,
    ⟨rfl, completes_loadAt (eaZeroPageX op8) s (by decide)⟩,
    ⟨rfl, completes_loadAt (fun _ => eaAbsolute op16) s (by decide)⟩,
    ⟨rfl, completes_loadAt (eaAbsoluteX op16) s (by decide)⟩,
    ⟨rfl, completes_loadAt (eaAbsoluteY op16) s (by decide)⟩,
    ⟨rfl, completes_loadAt (eaIndirectX op8) s (by decide)⟩,
    ⟨rfl, fun hpre => ?_, fun hpost => ?_⟩⟩
  · rw [hindirectY, eaIndirectY_of_preIndexed op8 hpre]
  · rw [hindirectY, eaIndirectY_of_postIndexed op8 hpost]

/-- Settles O30: as for AND, with the store's cell and frame. -/
theorem staFormsStoreOneByte : Obligations.StaFormsStoreOneByte := by
  intro s op8 op16
  obtain ⟨t, hexec, hstored⟩ := completes_storeAt (n := 2) (eaIndirectY op8) s (by decide)
  have hstored : Spec.StoredAt (eaIndirectY op8 s) 2 s t := hstored
  refine ⟨⟨rfl, completes_storeAt (fun _ => eaZeroPage op8) s (by decide)⟩,
    ⟨rfl, completes_storeAt (eaZeroPageX op8) s (by decide)⟩,
    ⟨rfl, completes_storeAt (fun _ => eaAbsolute op16) s (by decide)⟩,
    ⟨rfl, completes_storeAt (eaAbsoluteX op16) s (by decide)⟩,
    ⟨rfl, completes_storeAt (eaAbsoluteY op16) s (by decide)⟩,
    ⟨rfl, completes_storeAt (eaIndirectX op8) s (by decide)⟩,
    ⟨rfl, t, hexec, fun hpre => ?_, fun hpost => ?_⟩⟩
  · rwa [eaIndirectY_of_preIndexed op8 hpre] at hstored
  · rwa [eaIndirectY_of_postIndexed op8 hpost] at hstored

/-! ### ASL A and BRK -/

theorem exec_aslA (s : State) : exec .aslA s = .next ((shiftA s.fetched).advance 1) := rfl

theorem exec_aslA_stub {s : State} (h : s.config.aslVariant = .stub) :
    exec .aslA s = .next { s with pc := s.pc + 1 } := by
  rw [exec_aslA, shiftA_stub s.fetched h, State.advance, fetched_pc, pc_fetch_then_advance s.pc le_rfl]
  rfl

theorem exec_aslA_complete {s : State} (h : s.config.aslVariant = .complete) :
    exec .aslA s = .next
      { s with
        a := s.a <<< 1
        p := updateNegative (s.a <<< 1) (updateZero (s.a <<< 1) (updateCarry (s.a.getLsbD 7) s.p))
        pc := s.pc + 1 } := by
  have hpc : s.pc + 1 + BitVec.ofNat 16 (1 - 1) = s.pc + 1 := pc_fetch_then_advance s.pc le_rfl
  rw [exec_aslA, shiftA_complete s.fetched h, State.advance, setZN_pc, fetched_pc, hpc]
  rfl

/-- Settles O27: in `complete` the Carry helper writes bit 0, and `SetZN`, run last, writes bits 1 and 7 only. -/
theorem aslAdvancesInStubAndShiftsInComplete : Obligations.AslAdvancesInStubAndShiftsInComplete := by
  refine ⟨rfl, fun s => ⟨exec_aslA_stub, fun h => ⟨_, exec_aslA_complete h, ?_, ?_, ?_, ?_, ?_, rfl⟩⟩⟩
  · rw [BitVec.toNat_shiftLeft, Nat.shiftLeft_eq]
  · rw [flagC, getLsbD_updateNegative, if_neg (by decide), getLsbD_updateZero, if_neg (by decide),
      getLsbD_updateCarry, if_pos rfl]
  · exact flagZ_updateNegative_updateZero _ _
  · exact flagN_updateNegative_updateZero _ _
  · intro k hc hz hn
    rw [getLsbD_updateNegative, if_neg hn, getLsbD_updateZero, if_neg hz, getLsbD_updateCarry, if_neg hc]

/-- Settles O33: BRK is the fetch increment and the terminal event, and nothing else. -/
theorem brkHaltsOnePastItsOpcode : Obligations.BrkHaltsOnePastItsOpcode := ⟨rfl, fun _ => rfl⟩

end Sys2Proof.Machine
end

section
/-! SUPPORT. One step from its descriptor or its decoded instruction (45_control_fsm.md R161 to R168), and the statements on the
step. -/

namespace Sys2Proof.Machine

/-! ### The step of each kind of descriptor -/

/-- Where the mode does not resolve the run ends (45_control_fsm.md R168). -/
theorem step_of_unresolved {s : State} {d : Descriptor} (hs : Spec.Ready s) (hd : Spec.At d s)
    (hresolves : d.mnemonic ∈ [Mnemonic.and, .lda, .sta]) (hea : resolve d.mode s.fetched = none) :
    step s = .next (Spec.ended .addrModeFault s) := by
  have herror : handler d.mnemonic d.mode s.fetched = none := by
    simp only [List.mem_cons, List.not_mem_nil, or_false] at hresolves
    rcases hresolves with h | h | h <;> rw [h, handler, hea, Option.map_none]
  exact (step_of_at hs hd).trans (congrArg Host.Outcome.next (runDescriptor_of_error herror))

theorem step_of_brk {s : State} {d : Descriptor} (hs : Spec.Ready s) (hd : Spec.At d s) (hbrk : d.mnemonic = .brk) :
    step s = .next (Spec.ended .brk s) :=
  (step_of_at hs hd).trans (congrArg Host.Outcome.next (runDescriptor_of_brk s hbrk))

/-- The step of an AND whose mode resolves, under any well-formed table. -/
theorem step_of_and {s : State} {d : Descriptor} {ea : Addr} (hs : Spec.Ready s) (hd : Spec.At d s)
    (hand : d.mnemonic = .and) (hea : resolve d.mode s.fetched = some ea) :
    step s = .next (Spec.afterAnd (s.mem.read ea) d.length s) := by
  obtain ⟨hlength, -⟩ := OpTable.lookup_length hs.2 hd
  have hhandler : handler d.mnemonic d.mode s.fetched = some (andAt ea s.fetched) := by
    rw [hand, handler, hea, Option.map_some]
  rw [step_of_at hs hd, runDescriptor_of_handler (by simp [hand]) hhandler, andAt, fetched_mem,
    andWith_fetched_advance _ s hlength]

/-- The step of an STA whose mode resolves, under any well-formed table. -/
theorem step_of_sta {s : State} {d : Descriptor} {ea : Addr} (hs : Spec.Ready s) (hd : Spec.At d s)
    (hsta : d.mnemonic = .sta) (hea : resolve d.mode s.fetched = some ea) :
    ∃ t, step s = .next t ∧ Spec.StoredAt ea d.length s t := by
  obtain ⟨hlength, -⟩ := OpTable.lookup_length hs.2 hd
  have hhandler : handler d.mnemonic d.mode s.fetched = some (storeAt ea s.fetched) := by
    rw [hsta, handler, hea, Option.map_some]
  exact ⟨_, by rw [step_of_at hs hd, runDescriptor_of_handler (by simp [hsta]) hhandler],
    storedAt_storeAt_fetched_advance ea s hlength⟩

/-- Settles O36: the two cases of the resolver's answer. -/
theorem andInAnyModeOfAnyTable : Obligations.AndInAnyModeOfAnyTable := fun _ _ hs hd hand =>
  ⟨fun _ => step_of_and hs hd hand, step_of_unresolved hs hd (by simp [hand])⟩

/-- Settles O37: the two cases of the resolver's answer. -/
theorem ldaInAnyModeOfAnyTable : Obligations.LdaInAnyModeOfAnyTable := fun _ _ hs hd hlda =>
  ⟨fun _ => step_of_lda hs hd hlda, step_of_unresolved hs hd (by simp [hlda])⟩

/-- Settles O38: the two cases of the resolver's answer. -/
theorem staInAnyModeOfAnyTable : Obligations.StaInAnyModeOfAnyTable := fun _ _ hs hd hsta =>
  ⟨fun _ => step_of_sta hs hd hsta, step_of_unresolved hs hd (by simp [hsta])⟩

/-! ### The step against the spec's pseudocode -/

/-- Doubling modulo 256 is the shift by one. -/
theorem ofNat_toNat_mul_two (u : Byte) : BitVec.ofNat 8 (u.toNat * 2) = u <<< 1 := by
  apply BitVec.eq_of_toNat_eq
  rw [BitVec.toNat_ofNat, BitVec.toNat_shiftLeft, Nat.shiftLeft_eq]

theorem setZN_eq_spec (v : Byte) (s : State) : s.setZN v = { s with p := Spec.setZN s.p v } :=
  (zeroAndNegativeAreIndependent v s).1

/-- The model's handlers are the pseudocode's (45_control_fsm.md R161). -/
theorem handler_eq_handle (d : Descriptor) (s : State) : handler d.mnemonic d.mode s = Spec.handle d s := by
  rw [Spec.handle, ← resolve_eq_spec]
  cases d.mnemonic with
  | and => exact congrArg (Option.map · _) (funext fun ea => setZN_eq_spec (s.mem.read ea &&& s.a) s)
  | asl =>
    cases h : s.config.aslVariant with
    | stub => exact congrArg some (shiftA_stub s h)
    | complete =>
      rw [handler, shiftA_complete s h, setZN_eq_spec, ← ofNat_toNat_mul_two]
      rfl
  | lda =>
    exact congrArg (Option.map · _)
      (funext fun ea => setZN_eq_spec (s.mem.read ea) { s with a := s.mem.read ea })
  | sta => rfl
  | tax => exact congrArg some (setZN_eq_spec s.a { s with x := s.a })
  | inx => exact congrArg some (setZN_eq_spec (s.x + 1) { s with x := s.x + 1 })
  | brk => rfl

/-- The pseudocode at a descriptor: the handler's answer, then the test for BRK. -/
theorem specStep_of_at {s : State} {d : Descriptor} (hd : Spec.At d s) : Spec.step s = runDescriptor d s := by
  have hhandle : Spec.handle d { s with pc := s.pc + 1 } = handler d.mnemonic d.mode s.fetched :=
    (handler_eq_handle d s.fetched).symm
  cases hh : handler d.mnemonic d.mode s.fetched with
  | none =>
    rw [runDescriptor_of_error hh]
    simp only [Spec.step, hd, hhandle, hh]
    rfl
  | some t =>
    by_cases hbrk : d.mnemonic = .brk
    · rw [runDescriptor_of_brk s hbrk]
      simp only [Spec.step, hd, hhandle, hh, if_pos hbrk]
      rfl
    · rw [runDescriptor_of_handler hbrk hh]
      simp only [Spec.step, hd, hhandle, hh, if_neg hbrk]
      rfl

/-- Settles O35: by the lookup's answer, either the illegal opcode or the run of the descriptor. -/
theorem stepRefinesTheDispatchLoop : Obligations.StepRefinesTheDispatchLoop := by
  intro s hs
  cases hl : s.config.opTable.lookup (s.mem.read s.pc) with
  | none =>
    have hspec : Spec.step s = Spec.ended .illegalOpcode s := by simp only [Spec.step, hl]
    rw [hspec]
    exact step_of_lookup_none hs hl
  | some d => rw [specStep_of_at hl, step_of_at hs hl]

/-! ### The step of a decoded instruction -/

theorem step_of_decodeAt {s : State} {i : Instr} (hs : Spec.Ready s) (h : s.fetchDecode = .row i) :
    step s = exec i s := by
  obtain ⟨hf, hw⟩ := hs
  simp only [step, hf, hw, h, if_true]

/-- Decoding the three bytes at `pc` is what the fetch does. -/
theorem step_of_decodeIn {s : State} {i : Instr} {rest : List Byte} (hs : Spec.Ready s)
    (h : decodeIn s.config.opTable [s.mem.read s.pc, s.mem.read (s.pc + 1), s.mem.read (s.pc + 2)] = .ok (i, rest)) :
    step s = exec i s := by
  obtain ⟨hat, -⟩ := decodeIn_cons_eq_ok.1 h
  exact step_of_decodeAt hs hat

/-- Settles O34: the fetch reads three bytes whatever the instruction's length. -/
theorem stepRunsTheDecodedInstruction : Obligations.StepRunsTheDecodedInstruction := fun _ _ _ => step_of_decodeIn

/-- Settles O48: the store's address is the `pc` it leaves. -/
theorem storedByteIsTheNextOpcodeFetched : Obligations.StoredByteIsTheNextOpcodeFetched := by
  rintro s i rest hs h rfl
  obtain ⟨t, hexec, hcell, hframe⟩ := completes_storeAt (n := 3) (fun _ => eaAbsolute (s.pc + 3)) s (by decide)
  have hpc : t.pc = s.pc + 3 := congrArg State.pc hframe
  refine ⟨t, (step_of_decodeIn hs h).trans hexec, hpc, ?_⟩
  rw [hpc, hcell, eaAbsolute, if_pos rfl]

theorem read_placeWord (m : Memory) (addr : Addr) (w : Nat) :
    (m.placeWord addr w).read addr = byteOf w 0 ∧ (m.placeWord addr w).read (addr + 1) = byteOf w 1 ∧
      (m.placeWord addr w).read (addr + 2) = byteOf w 2 := by
  have h01 : addr ≠ addr + 1 := by bv_omega
  have h02 : addr ≠ addr + 2 := by bv_omega
  have h12 : addr + 1 ≠ addr + 2 := by bv_omega
  refine ⟨?_, ?_, ?_⟩
  · rw [Memory.placeWord, read_write_other _ _ h02, read_write_other _ _ h01, read_write_same]
  · rw [Memory.placeWord, read_write_other _ _ h12, read_write_same]
  · rw [Memory.placeWord, read_write_same]

theorem decode_of_decodeTableWord {nbits w : Nat} {i : Instr} (h : decodeTableWord nbits w = some i) :
    ∃ rest, decode [byteOf (w % 2 ^ nbits) 0, byteOf (w % 2 ^ nbits) 1, byteOf (w % 2 ^ nbits) 2] = .ok (i, rest) := by
  rw [decodeTableWord] at h
  cases hd : decode [byteOf (w % 2 ^ nbits) 0, byteOf (w % 2 ^ nbits) 1, byteOf (w % 2 ^ nbits) 2] with
  | error e => rw [hd] at h; cases h
  | ok answer =>
    rw [hd] at h
    obtain ⟨j, rest⟩ := answer
    cases h
    exact ⟨rest, rfl⟩

/-- Settles O49: the three bytes at `pc` are the word's, the machine is `Running` and T0 is well formed. -/
theorem placedWordIsTheInstructionRun : Obligations.PlacedWordIsTheInstructionRun := by
  intro s nbits w i ht h
  obtain ⟨rest, hdecode⟩ := decode_of_decodeTableWord h
  have hs : Spec.Ready (s.withFetchWord nbits w) := ready_of_t0 rfl ht
  obtain ⟨h0, h1, h2⟩ := read_placeWord s.mem s.pc (w % 2 ^ nbits)
  refine step_of_decodeIn (rest := rest) hs ?_
  rw [State.withFetchWord, h0, h1, h2, ht]
  exact hdecode

/-! ### Every step -/

/-- Settles O43: only a handler leaves the machine `Running`, and the fetch and the advance add up to the length. -/
theorem runningStepMovesPcByTheLength : Obligations.RunningStepMovesPcByTheLength := by
  intro s t hs h hrunning
  obtain ⟨-, rfl⟩ | ⟨d, -, -, rfl⟩ | ⟨d, -, -, -, rfl⟩ | ⟨d, u, hd, hbrk, hu, rfl⟩ := step_cases_of_ready hs h
  · cases hrunning
  · cases hrunning
  · cases hrunning
  · obtain ⟨hone, hthree⟩ := OpTable.lookup_length hs.2 hd
    obtain ⟨-, hpc, -⟩ := handler_frame hu
    exact ⟨d, hd, hbrk, hone, hthree, by rw [advance_pc, hpc, fetched_pc, pc_fetch_then_advance s.pc hone]⟩

/-- No handler ends a run. -/
theorem advance_not_halted {s u : State} {d : Descriptor} (hs : Spec.Ready s)
    (hu : handler d.mnemonic d.mode s.fetched = some u) : (u.advance d.length).fsm ≠ .halted := by
  obtain ⟨-, -, hf, -⟩ := handler_frame hu
  rw [advance_fsm, hf, fetched_fsm, hs.1]
  decide

/-- Settles O44: the three terminal events of the inversion are the three cases. -/
theorem terminalEventsArePreciseAndExclusive : Obligations.TerminalEventsArePreciseAndExclusive := by
  intro s t hs h hhalted
  obtain ⟨hl, rfl⟩ | ⟨d, hd, hbrk, rfl⟩ | ⟨d, hd, hresolves, hmode, rfl⟩ | ⟨d, u, -, -, hu, rfl⟩ :=
    step_cases_of_ready hs h
  · exact ⟨rfl, .inl ⟨rfl, hl⟩⟩
  · exact ⟨rfl, .inr (.inl ⟨rfl, d, hd, hbrk⟩)⟩
  · exact ⟨rfl, .inr (.inr ⟨rfl, d, hd, hresolves, hmode⟩)⟩
  · exact absurd hhalted (advance_not_halted hs hu)

/-- Every AND, LDA and STA of T0 has a mode that resolves (30_encoding.md R55, 45_control_fsm.md R168). -/
theorem mode_of_mem_t0 : ∀ d ∈ t0, d.mnemonic ∈ [Mnemonic.and, .lda, .sta] → d.mode ≠ .noneAddressing := by
  decide

/-- Settles O40: the second part by the cause's own condition, which no row of T0 meets. -/
theorem addressingFaultHaltsAndNeverUnderT0 : Obligations.AddressingFaultHaltsAndNeverUnderT0 := by
  refine ⟨fun _ _ => step_of_unresolved, fun s t hf ht h hhalted hcause => ?_⟩
  obtain ⟨-, ⟨hc, -⟩ | ⟨hc, -⟩ | ⟨-, d, hd, hresolves, hmode⟩⟩ :=
    terminalEventsArePreciseAndExclusive s t (ready_of_t0 hf ht) h hhalted
  · cases hcause.symm.trans hc
  · cases hcause.symm.trans hc
  · rw [Spec.At, ht] at hd
    exact mode_of_mem_t0 d (OpTable.lookup_mem hd) hresolves hmode

/-- Settles O45: the only handler that writes memory is STA's. -/
theorem onlyStaWritesMemory : Obligations.OnlyStaWritesMemory := by
  intro s t hs h
  obtain ⟨-, rfl⟩ | ⟨d, -, -, rfl⟩ | ⟨d, -, -, -, rfl⟩ | ⟨d, u, hd, -, hu, rfl⟩ := step_cases_of_ready hs h
  · exact .inl rfl
  · exact .inl rfl
  · exact .inl rfl
  · obtain hsame | ⟨ea, hsta, hea, hwrite⟩ := handler_mem hu
    · exact .inl hsame
    · refine .inr ⟨d, ea, hd, hsta, hea, fun b => ?_⟩
      rw [advance_mem, hwrite]
      exact read_write s.mem ea b s.a

/-- Settles O41: no step occurs while `Halted`. -/
theorem haltedMachineStaysAsItIs : Obligations.HaltedMachineStaysAsItIs := fun _ => step_of_halted

/-- Settles O42: the check stands before the fetch, and a well-formed table's lengths are 1 to 3. -/
theorem illFormedTableIsRefused : Obligations.IllFormedTableIsRefused := by
  refine ⟨fun s hf hw => by simp [step, hf, hw], fun t d hd hlength => ?_⟩
  refine Bool.eq_false_iff.2 fun hw => ?_
  obtain ⟨hone, hthree⟩ := OpTable.wfFrom_length t 0 hw d hd
  omega

end Sys2Proof.Machine
end

section
/-! SUPPORT. The host's operations while `Halted` and while `Running` (70_reset_and_hazards.md), and the statements on them. -/

namespace Sys2Proof.Machine

/-- Settles O1: every register and cell of power-on is zero by definition, and no step moves a `Halted` machine. -/
theorem powerOnLeavesEverythingZeroAndHalted : Obligations.PowerOnLeavesEverythingZeroAndHalted :=
  ⟨rfl, fun _ => ⟨rfl, rfl, rfl, rfl, rfl, rfl, rfl, rfl, fun _ => rfl, step_of_halted rfl⟩⟩

/-- Settles O3: `Reset` is enabled, and the vector's high byte is at 0xFFFD. -/
theorem hostResetClearsAXPAndLoadsPcFromVector : Obligations.HostResetClearsAXPAndLoadsPcFromVector := fun _ h =>
  hostStep_of_halted .reset h

/-- Settles O11: `Run` is enabled and ends at the length check. -/
theorem overlongProgramIsRejectedUntouched : Obligations.OverlongProgramIsRejectedUntouched := by
  intro s program h hlong
  rw [hostStep_of_halted _ h, HostOp.apply, beginRun_of_lt s hlong, State.raise]

/-- Settles O56: each of the three functions tests `fsm` first. -/
theorem hostIsRefusedWhileRunning : Obligations.HostIsRefusedWhileRunning := by
  intro s h
  exact ⟨fun op => by rw [hostStep, h], fun addr => by rw [hostRead, h], by rw [hostInspect, h]⟩

/-- Settles O57: each operation is enabled, and the write is the byte write of memory. -/
theorem hostReadsAndWritesWhileHalted : Obligations.HostReadsAndWritesWhileHalted := by
  intro s addr v h
  refine ⟨by rw [hostRead, h], by rw [hostInspect, h], _, hostStep_of_halted _ h, rfl, fun b => ?_⟩
  exact read_write s.mem addr b v

/-- The vector that a load writes (20_memory.md R36, 70_reset_and_hazards.md R213). -/
theorem read16_load_resetVector (m : Memory) (program : List Byte) : (m.load program).read16 resetVector = loadBase :=
  wordWrittenReadsBack _ resetVector loadBase

/-- Settles O55: the length check passes, and `Reset` loads `pc` from the vector that the load has just written. -/
theorem runLoadsResetsAndStartsAtTheProgram : Obligations.RunLoadsResetsAndStartsAtTheProgram := by
  intro s program fuel h hfits
  have hbegin : s.beginRun program =
      { s with
        a := 0x00, x := 0x00, p := 0x00, pc := 0x8000, fsm := .running, haltCause := .none
        mem := s.mem.load program } := by
    rw [beginRun_of_le s hfits, State.applyReset, read16_load_resetVector]
    rfl
  have hrun : hostStep (.run program) s = .next (s.beginRun program) := hostStep_of_halted _ h
  rw [run, hrun, hbegin]
  exact ⟨rfl, rfl⟩

end Sys2Proof.Machine
end

section
/-! SUPPORT. The dispatch loop under fuel (45_control_fsm.md section 4): a halted run is stable, and the sweep of `pc`, with the
statements on them. -/

namespace Sys2Proof.Machine

/-! ### One turn of the loop -/

theorem dispatchLoop_of_halted (k : Nat) {s : State} (h : s.fsm = .halted) : dispatchLoop k s = .next s := by
  cases k with
  | zero => rfl
  | succ k => rw [dispatchLoop, h]

theorem dispatchLoop_succ_of_step {s t : State} (k : Nat) (hf : s.fsm = .running) (h : step s = .next t) :
    dispatchLoop (k + 1) s = dispatchLoop k t := by
  rw [dispatchLoop, hf, h]

/-- A turn of the loop that answers was a step that answered. -/
theorem step_of_dispatchLoop_succ {k : Nat} {s t : State} (hf : s.fsm = .running)
    (h : dispatchLoop (k + 1) s = .next t) : ∃ u, step s = .next u ∧ dispatchLoop k u = .next t := by
  rw [dispatchLoop, hf] at h
  cases hstep : step s with
  | next u => exact ⟨u, rfl, by rwa [hstep] at h⟩
  | fault r => cases r
  | refused r => rw [hstep] at h; cases h

/-- Settles O58: the induction over the smaller fuel; a machine `Halted` on the way takes no more turns. -/
theorem haltedRunIsStableUnderMoreFuel : Obligations.HaltedRunIsStableUnderMoreFuel := by
  intro j
  induction j with
  | zero =>
    intro k s t h hhalted _
    obtain rfl : s = t := Host.Outcome.next.inj h
    exact dispatchLoop_of_halted k hhalted
  | succ j ih =>
    intro k s t h hhalted hjk
    obtain ⟨k, rfl⟩ := Nat.exists_eq_add_of_le' (Nat.le_of_add_left_le hjk)
    cases hf : s.fsm with
    | halted =>
      rw [dispatchLoop_of_halted _ hf] at h ⊢
      exact h
    | running =>
      obtain ⟨u, hstep, hrest⟩ := step_of_dispatchLoop_succ hf h
      rw [dispatchLoop_succ_of_step k hf hstep]
      exact ih k u t hrest hhalted (Nat.le_of_succ_le_succ hjk)

/-! ### The sweep -/

/-- The bytes at 0x0000, 0x0001 and 0x0002 are opcodes of BRK. -/
def BrkAtBottom (s : State) : Prop :=
  ∀ b ∈ [(0x0000 : Addr), 0x0001, 0x0002], ∃ d, s.config.opTable.lookup (s.mem.read b) = some d ∧ d.mnemonic = .brk

/-- The machine is `Halted` or its next instruction is an STA. -/
def HaltsOrMeetsSta (s : State) : Prop := s.fsm = .halted ∨ ∃ d, Spec.At d s ∧ d.mnemonic = .sta

/-- The loop comes to such a state within some number of steps. -/
def SweepsWithin (n : Nat) (s : State) : Prop := ∃ k t, k ≤ n ∧ dispatchLoop k s = .next t ∧ HaltsOrMeetsSta t

theorem sweepsWithin_here {s : State} (n : Nat) (h : HaltsOrMeetsSta s) : SweepsWithin n s :=
  ⟨0, s, Nat.zero_le n, rfl, h⟩

theorem sweepsWithin_of_step {s t : State} {n : Nat} (hf : s.fsm = .running) (h : step s = .next t)
    (ht : SweepsWithin n t) : SweepsWithin (n + 1) s := by
  obtain ⟨k, u, hk, hloop, hu⟩ := ht
  exact ⟨k + 1, u, Nat.succ_le_succ hk, (dispatchLoop_succ_of_step k hf h).trans hloop, hu⟩

theorem SweepsWithin.mono {s : State} {m n : Nat} (hmn : m ≤ n) (h : SweepsWithin m s) : SweepsWithin n s := by
  obtain ⟨k, t, hk, hrest⟩ := h
  exact ⟨k, t, hk.trans hmn, hrest⟩

/-- With `pc` at one of the three BRK bytes, one step halts. -/
theorem sweepsWithin_one_of_bottom {s : State} (hs : Spec.Ready s) (hbottom : BrkAtBottom s) (hpc : s.pc.toNat < 3) :
    SweepsWithin 1 s := by
  have hmem : s.pc ∈ [(0x0000 : Addr), 0x0001, 0x0002] := by
    simp only [List.mem_cons, List.not_mem_nil, or_false]
    bv_omega
  obtain ⟨d, hd, hbrk⟩ := hbottom s.pc hmem
  exact sweepsWithin_of_step hs.1 (step_of_brk hs hd hbrk) (sweepsWithin_here 0 (.inl rfl))

/-- What a step does to the sweep: it is over, or it goes on with the same memory and table, 1 to 3 bytes on. -/
theorem sweep_step {s : State} (hs : Spec.Ready s) :
    HaltsOrMeetsSta s ∨ ∃ t, step s = .next t ∧
      (t.fsm = .halted ∨ Spec.Ready t ∧ t.mem = s.mem ∧ t.config = s.config ∧
        ∃ n, 1 ≤ n ∧ n ≤ 3 ∧ t.pc = s.pc + BitVec.ofNat 16 n) := by
  have hstep : step s = .next (Spec.step s) := stepRefinesTheDispatchLoop s hs
  obtain hsame | ⟨d, ea, hd, hsta, -⟩ := onlyStaWritesMemory s _ hs hstep
  · refine .inr ⟨Spec.step s, hstep, ?_⟩
    cases hf : (Spec.step s).fsm with
    | halted => exact .inl rfl
    | running =>
      obtain ⟨d, -, -, hone, hthree, hpc⟩ := runningStepMovesPcByTheLength s _ hs hstep hf
      obtain ⟨-, hconfig, -⟩ := eachRegisterIsWrittenOnlyByItsInstructions s _ hstep
      exact .inr ⟨⟨hf, hconfig ▸ hs.2⟩, hsame, hconfig, d.length, hone, hthree, hpc⟩
  · exact .inl (.inr ⟨d, hd, hsta⟩)

/-- The sweep from `pc`, by induction on the distance to the top of memory: past the top it comes to the BRK bytes. -/
theorem sweepsWithin_of_distance :
    ∀ (n : Nat) (s : State), Spec.Ready s → BrkAtBottom s → 65536 - s.pc.toNat ≤ n → SweepsWithin (n + 1) s := by
  intro n
  induction n with
  | zero =>
    intro s _ _ hn
    have hlt : s.pc.toNat < 65536 := s.pc.isLt
    omega
  | succ n ih =>
    intro s hs hbottom hn
    obtain hdone | ⟨t, hstep, hhalted | ⟨ht, hmem, hconfig, len, hone, hthree, hpc⟩⟩ := sweep_step hs
    · exact sweepsWithin_here _ hdone
    · exact sweepsWithin_of_step hs.1 hstep (sweepsWithin_here _ (.inl hhalted))
    · have hbottom' : BrkAtBottom t := by rwa [BrkAtBottom, hmem, hconfig]
      have hmoved : t.pc.toNat = (s.pc.toNat + len) % 65536 := by
        rw [hpc, BitVec.toNat_add, BitVec.toNat_ofNat, Nat.mod_eq_of_lt (show len < 2 ^ 16 by omega)]
      refine sweepsWithin_of_step hs.1 hstep ?_
      by_cases hwrap : t.pc.toNat < 3
      · exact (sweepsWithin_one_of_bottom ht hbottom' hwrap).mono (Nat.le_add_left 1 n)
      · exact ih t ht hbottom' (by omega)

/-- Settles O59: the distance to the top of memory falls at each step, and the one step after it is a BRK. -/
theorem sweepHaltsOrMeetsAnSta : Obligations.SweepHaltsOrMeetsAnSta := by
  intro s hs hbottom
  have hlt : s.pc.toNat < 65536 := s.pc.isLt
  have hsweep : SweepsWithin (65536 - s.pc.toNat + 1) s := sweepsWithin_of_distance _ s hs hbottom le_rfl
  exact hsweep.mono (by omega)

end Sys2Proof.Machine
end
